-- ==== Sys2Proof/Word.lean ====
section
/-! DEFINITION. The words of the SPN block: blocks, groups, command and response words (spec 00_scope.md R7, R9, R10; 30_encoding.md R41, R43). -/

namespace Sys2Proof

/-- A 12-bit block, the width of every operand and result (R7 `BLOCK_BITS`, R28). -/
abbrev Block := BitVec 12

/-- A 3-bit group of a block (R7 `GROUP_BITS`, R64). -/
abbrev Group := BitVec 3

/-- A 4-bit operation code (R41, R44). -/
abbrev Opcode := BitVec 4

/-- A 40-bit command word (R7 `CMD_BITS`, R41). -/
abbrev Cmd := BitVec 40

/-- A 14-bit response word (R7 `RSP_BITS`, R43). -/
abbrev Rsp := BitVec 14

/-- A bit-string of any length, leftmost character first, `true` for '1' (R9; R81 allows a list of bits). -/
abbrev BitStr := List Bool

/-- A text: its Unicode code points in order (91 N21: "a host model should take a text as a list of Unicode code points"). -/
abbrev Text := List Nat

end Sys2Proof
end

