-- ==== Sys2Proof/Syntax.lean ====
section
/-! DEFINITION. The seven operations of the block (spec 30_encoding.md R44, R45; 44_operation_classes.md R131). -/

namespace Sys2Proof

/-- One constructor per row of the opcode table, with the operand fields the operation uses (R45);
fields an operation ignores are not part of the instruction. -/
inductive Instr where
  /-- `XOR a, b` (R53). -/
  | xor (a b : Block)
  /-- `PERM a` (R57). -/
  | perm (a : Block)
  /-- `PERMI a` (R58). -/
  | permi (a : Block)
  /-- `SUB a` (R66). -/
  | sub (a : Block)
  /-- `SUBI a` (R67). -/
  | subi (a : Block)
  /-- `ENC a, b, c`: plaintext block, slice of `key1`, slice of `key2` (R74). -/
  | enc (a b c : Block)
  /-- `DEC a, b, c`: ciphertext block, slice of `key1`, slice of `key2` (R75). -/
  | dec (a b c : Block)
  deriving DecidableEq, Repr

end Sys2Proof
end

