-- ==== Sys2Proof/WellFormed.lean ====
section
/-! DEFINITION. What makes a command word, a response word and an instruction well formed (spec 30_encoding.md R41, R43, R44, R46). -/

namespace Sys2Proof

/-- Whether a 4-bit code is one of the seven defined operations: `op[3]` must be 0, and `0x1` is reserved (R44, R46). -/
def Opcode.wellFormed (op : Opcode) : Bool :=
  op.getLsbD 3 == false && op != 0x1#4

/-- Whether a command word is one of the seven operations, not a reserved encoding (R46, R47: there is no third class). -/
def Cmd.wellFormed (w : Cmd) : Bool :=
  Opcode.wellFormed (w.extractLsb' 36 4)

/-- Whether a response word is one the format allows: `st = 3` is never produced, and `y` is `0x000` when `st` is not 0 (R43). -/
def Rsp.wellFormed (r : Rsp) : Bool :=
  let st := r.extractLsb' 12 2
  let y := r.extractLsb' 0 12
  st != 3#2 && (st == 0#2 || y == 0#12)

/-- Every instruction is well formed: each operand is exactly 12 bits by its type (R33), and every operand value is
allowed (R45, R49), so no check is left to make. -/
def Instr.wellFormed : Instr → Bool
  | .xor _ _ => true
  | .perm _ => true
  | .permi _ => true
  | .sub _ => true
  | .subi _ => true
  | .enc _ _ _ => true
  | .dec _ _ _ => true

end Sys2Proof
end

