-- ==== Sys2Proof/Decode.lean ====
section
/-! DEFINITION. Decoding a command word and encoding an instruction (spec 30_encoding.md R41, R42, R44 to R48). -/

namespace Sys2Proof

/-- R41: the operation code, `cmd[39:36]`. -/
def cmdOp (w : Cmd) : Opcode := w.extractLsb' 36 4

/-- R41: the first operand, `cmd[35:24]`. -/
def cmdA (w : Cmd) : Block := w.extractLsb' 24 12

/-- R41: the second operand, `cmd[23:12]`. -/
def cmdB (w : Cmd) : Block := w.extractLsb' 12 12

/-- R41: the third operand, `cmd[11:0]`. -/
def cmdC (w : Cmd) : Block := w.extractLsb' 0 12

/-- Why a command word is no operation: its code is reserved (R46). There is no other reason (R47). -/
inductive DecodeError where
  /-- The code is `0x1` or one of `0x8` to `0xF`. The block answers such a word with `INVALID_ARGUMENT`; safe (93 U5). -/
  | reservedOp (op : Opcode)
  deriving DecidableEq, Repr

/-- R44: the opcode map. Total on all words; the fields an operation does not use are not looked at (R45). -/
def decode (w : Cmd) : Except DecodeError Instr :=
  match (cmdOp w).toNat with
  | 0 => .ok (.xor (cmdA w) (cmdB w))
  | 2 => .ok (.perm (cmdA w))
  | 3 => .ok (.permi (cmdA w))
  | 4 => .ok (.sub (cmdA w))
  | 5 => .ok (.subi (cmdA w))
  | 6 => .ok (.enc (cmdA w) (cmdB w) (cmdC w))
  | 7 => .ok (.dec (cmdA w) (cmdB w) (cmdC w))
  | _ => .error (.reservedOp (cmdOp w))

/-- R41: a command word from its fields, `op` most significant. -/
def packCmd (op : Opcode) (a b c : Block) : Cmd := op ++ a ++ b ++ c

/-- R44: the code of each operation. -/
def Instr.opcode : Instr → Opcode
  | .xor _ _ => 0x0#4
  | .perm _ => 0x2#4
  | .permi _ => 0x3#4
  | .sub _ => 0x4#4
  | .subi _ => 0x5#4
  | .enc _ _ _ => 0x6#4
  | .dec _ _ _ => 0x7#4

/-- The word of an instruction; zero in the fields it does not use (R45, R50). -/
def encode (i : Instr) : Cmd :=
  match i with
  | .xor a b => packCmd i.opcode a b 0#12
  | .perm a => packCmd i.opcode a 0#12 0#12
  | .permi a => packCmd i.opcode a 0#12 0#12
  | .sub a => packCmd i.opcode a 0#12 0#12
  | .subi a => packCmd i.opcode a 0#12 0#12
  | .enc a b c => packCmd i.opcode a b c
  | .dec a b c => packCmd i.opcode a b c

/-- The instruction the decoder reads from the low `nbits` bits of `w`, numbered as the opcode table numbers them.
A command is one 40-bit word (R48), so `cmd[k]` is the table's bit `k`; a longer row is refused. -/
def decodeTableWord (nbits w : Nat) : Option Instr :=
  if nbits ≤ 40 then
    match decode (BitVec.ofNat 40 (w % 2 ^ nbits)) with
    | .ok i => some i
    | .error _ => none
  else none

end Sys2Proof
end

