-- ==== Sys2Proof/Machine/Operands.lean ====
section
/-! DEFINITION. The parts of an operand: the characters of a block by string index and its four groups
(spec 00_scope.md R9, R10; 20_memory.md R30; 42_sbox_lookup.md R65). -/

namespace Sys2Proof.Machine

/-- R9, R30: the character `a{i}` of a block; string index 0 is the most significant bit, `a{i} = a[11-i]`. -/
def charAt (a : Block) (i : Fin 12) : Bool := a.getMsbD i

/-- The block `a` with the character of string index `i` replaced by `b`. -/
def setChar (a : Block) (i : Fin 12) (b : Bool) : Block :=
  let one : Block := 1#12 <<< (11 - i.val)
  if b then a ||| one else a &&& ~~~one

/-- R65: group `k` of a block, numbered from the left: the slice `a[11-3k : 9-3k]`. -/
def groupAt (a : Block) (k : Fin 4) : Group := a.extractLsb' (9 - 3 * k.val) 3

/-- R65: the block made of four groups, group 0 leftmost. -/
def ofGroups (g0 g1 g2 g3 : Group) : Block := g0 ++ g1 ++ g2 ++ g3

end Sys2Proof.Machine
end

