-- ==== Sys2Proof/Machine/Flags.lean ====
section
/-! DEFINITION. The block has no flags (spec 10_state.md R22). Its only status is the `st` field of the response word, assembled
and read here (30_encoding.md R43; 60_exceptions.md R105, R106). -/

namespace Sys2Proof.Machine

/-- The error kinds that exist in the block (R105). -/
inductive BlockError where
  /-- SC's `InvalidArgument`: a reserved operation code (R46, R107). -/
  | invalidArgument
  /-- SC's `LookupError`: a group with no entry in the active map (R69, R107). -/
  | lookupError
  deriving DecidableEq, Repr

/-- R106: the status code of an error kind. -/
def statusCode : BlockError → BitVec 2
  | .invalidArgument => 1#2
  | .lookupError => 2#2

/-- R43: a response word from its fields, `st` most significant. -/
def packRsp (st : BitVec 2) (y : Block) : Rsp := st ++ y

/-- R43, R106: the response of an operation that ends with result `y`; status `OK`. -/
def okRsp (y : Block) : Rsp := packRsp 0#2 y

/-- R43, R106: the response of an operation that raises `k`; the result field is `0x000`. -/
def errRsp (k : BlockError) : Rsp := packRsp (statusCode k) 0#12

/-- R43: the status field, `rsp[13:12]`. -/
def rspStatus (r : Rsp) : BitVec 2 := r.extractLsb' 12 2

/-- R43: the result field, `rsp[11:0]`. -/
def rspResult (r : Rsp) : Block := r.extractLsb' 0 12

/-- The response of an operation from how it ended: with a result, or with an error kind (R49, R106). -/
def rspOf : Except BlockError Block → Rsp
  | .ok y => okRsp y
  | .error k => errRsp k

end Sys2Proof.Machine
end

