-- ==== Sys2Proof/Config.lean ====
section
/-! DEFINITION. What is fixed for the block (spec 00_scope.md R7) and the one value its ports leave free (93_implementation_defined.md U7). -/

namespace Sys2Proof.Config

/-- R7: bits of a block, the cipher's native block size. -/
def blockBits : Nat := 12

/-- R7: bits of a group. -/
def groupBits : Nat := 3

/-- R7 (host only): bits of an encoded character. -/
def byteBits : Nat := 8

/-- The value 92_eei_decisions.md suggests for the open parameter `LATENCY`.
DESIGN CHOICE (log 1): only `State.reset` uses it; every statement holds for all latencies. -/
def suggestedLatency : Nat := 0

/-- FREE VALUE (log 4): what the pins `rsp` carry at an edge where `rsp_valid = 0`, by the number of the edge.
The spec: "unspecified; the host must not read it" (R27), treatment "any value" (U7). -/
opaque rspWhileInvalid : Nat → Rsp

end Sys2Proof.Config
end

