-- ==== Sys2Proof/Machine/State.lean ====
section
/-! DEFINITION. The state of the block at its ports, the state after reset, and the reasons a step could stop
(spec 10_state.md R14, R24, R26, R27; 70_reset_and_hazards.md R119, R120). -/

namespace Sys2Proof.Machine

/-- The input pins at one rising edge of `clk` (R24). -/
structure EdgeInput where
  /-- Synchronous reset, active high (R24, R119). -/
  rst : Bool
  /-- A command word is present (R24). -/
  cmdValid : Bool
  /-- The command word; not looked at when `cmdValid` is false (93 U7). -/
  cmd : Cmd
  deriving DecidableEq, Repr

/-- The pins of a host that presents nothing (R130: a run is a finite list of commands). The value of `cmd` here is never
looked at (93 U7). -/
def EdgeInput.idle : EdgeInput := { rst := false, cmdValid := false, cmd := 0#40 }

/-- One entry of the in-flight queue: an accepted command's response word and how many edges remain until it is due (R26). -/
structure InFlight where
  wait : Nat
  rsp : Rsp
  deriving DecidableEq, Repr

/-- All that the spec gives the block beside its constant tables, and the host's side of the pins.
`latency`, `inflight` and `out` are the spec's; `inputs`, `edge` and `seen` are the model's own (INVENTORY.md, State). -/
structure State where
  /-- The open parameter `LATENCY` (R7, R24, 93 U9); no step changes it. -/
  latency : Nat
  /-- The in-flight queue, oldest command first (R26). -/
  inflight : List InFlight
  /-- The output ports at the latest edge: `none` is `rsp_valid = 0`, `some r` is `rsp_valid = 1` and `rsp = r` (R24). -/
  out : Option Rsp
  /-- The pins the host drives at the coming edges, the next edge first; past the end the host presents nothing (log 3). -/
  inputs : List EdgeInput
  /-- How many edges have passed: the counter of the free value of `rsp` (log 4). -/
  edge : Nat
  /-- The response words the host has read, oldest first: the list a run is judged by (R130; log 6). -/
  seen : List Rsp
  deriving DecidableEq, Repr

/-- Why the machine would stop. It never does: an error is a response word and the next command runs normally
(R106, R112, R113), and every command word has exactly one response (R49). So no reason exists. -/
inductive Fault
  deriving DecidableEq, Repr

/-- Why an instruction would be refused. -/
inductive Refusal where
  /-- The host interface's refusal of an instruction without a meaning. No arm of `exec` raises it: all seven operations
  have their meaning. Safe. -/
  | notModelled (mnemonic : String)
  deriving DecidableEq, Repr

/-- The state after reset of a block whose `LATENCY` is `n` (R27, R120): in-flight queue empty, `rsp_valid = 0`. -/
def State.resetAt (n : Nat) : State :=
  { latency := n, inflight := [], out := none, inputs := [], edge := 0, seen := [] }

/-- The state after reset. DESIGN CHOICE (log 1): `LATENCY` at the value the spec suggests. -/
def State.reset : State := State.resetAt Config.suggestedLatency

end Sys2Proof.Machine
end

