-- ==== Sys2Proof/Machine/Ops.lean ====
section
/-! DEFINITION. The operations every instruction and every edge is made of: accepting a command, answering it, raising an error,
and the coming and going of the in-flight queue (spec 10_state.md R24, R26; 60_exceptions.md R106, R112, R113; 70_reset_and_hazards.md R119). -/

namespace Sys2Proof.Machine

/-- How a step of this machine ends. -/
abbrev Result := Host.Outcome State Fault Refusal

/-- The pins at the coming edge; a host whose list has ended presents nothing (log 3). -/
def pinsNow (s : State) : EdgeInput := s.inputs.headD EdgeInput.idle

/-- The pin `rsp` at the latest edge. While `rsp_valid = 0` it has no meaning (R24, R27): a free value (log 4). -/
def State.rspPort (s : State) : Rsp :=
  match s.out with
  | some r => r
  | none => Config.rspWhileInvalid s.edge

/-- The port `rsp_valid` at the latest edge (R24). -/
def State.rspValid (s : State) : Bool := s.out.isSome

/-- R24, R26: a command accepted at this edge gives the response `r`, due `LATENCY` edges later. -/
def enqueue (r : Rsp) (s : State) : State :=
  { s with inflight := s.inflight ++ [{ wait := s.latency, rsp := r }] }

/-- An operation ends with the result `y`: the response `{0b00, y}` (R49). -/
def respond (y : Block) (s : State) : Result := .next (enqueue (okRsp y) s)

/-- TAKING AN ERROR, for every cause (R106, R112): the response has the kind's status and `y = 0x000`, and nothing else happens.
Nothing is saved and nothing changes, so there is no return from an error either (R113). -/
def raiseError (k : BlockError) (s : State) : Result := .next (enqueue (errRsp k) s)

/-- An operation ends as it ended: with a result, or with an error kind. -/
def answer : Except BlockError Block → State → Result
  | .ok y, s => respond y s
  | .error k, s => raiseError k s

/-- R46, R47: a command with a reserved code raises `InvalidArgument`; its operands are not examined (R111). -/
def execReserved (s : State) : Result := raiseError .invalidArgument s

/-- One edge nearer to its response (R24). -/
def InFlight.tick (e : InFlight) : InFlight := { e with wait := e.wait - 1 }

/-- The edge is counted and its pins are consumed. -/
def passEdge (s : State) : State :=
  { s with inputs := s.inputs.tail, edge := s.edge + 1 }

/-- The start of an edge with `rst = 0`: every command in flight is one edge nearer to its response, and `rsp_valid` is 0
unless a response turns out to be due (R24). -/
def beginEdge (s : State) : State :=
  { passEdge s with inflight := s.inflight.map InFlight.tick, out := none }

/-- The end of an edge with `rst = 0`: a response that is due appears at the ports, and the host reads it (R24). -/
def endEdge (s : State) : State :=
  match s.inflight with
  | { wait := 0, rsp := r } :: rest => { s with inflight := rest, out := some r, seen := s.seen ++ [r] }
  | _ => s

/-- R119: an edge with `rst = 1`. No command is accepted, every command in flight is dropped without a response
(one due at this very edge too, log 5), and `rsp_valid` is 0. -/
def resetEdge (s : State) : State :=
  { passEdge s with inflight := [], out := none }

/-- What follows the instruction at its edge. A command is answered at that same edge when `LATENCY` is 0 (R24). -/
def afterExec : Result → Result
  | .next s => .next (endEdge s)
  | .fault f => .fault f
  | .refused r => .refused r

end Sys2Proof.Machine
end

