-- ==== Sys2Proof/Machine/Tables.lean ====
section
/-! DEFINITION. The four constant tables (spec 10_state.md R15 to R19, 70_reset_and_hazards.md R122). They are hard-wired:
no command, no reset and no port can change them (R19), so they are constants and not fields of State (log 7). -/

namespace Sys2Proof.Machine

/-- R15: the P-Box forward map, `from → to` on string indices. -/
def pboxForward : List (Fin 12 × Fin 12) :=
  [(0, 4), (1, 6), (2, 1), (3, 11), (4, 8), (5, 5), (6, 3), (7, 2), (8, 10), (9, 7), (10, 0), (11, 9)]

/-- R17: the S-Box forward map, on the unsigned value of a group. -/
def sboxForward : List (Group × Group) :=
  [(0, 4), (1, 2), (2, 6), (3, 1), (4, 7), (5, 0), (6, 5), (7, 3)]

/-- R16, R18: an inverse map is "derived by swapping key/value pairs". -/
def invertTable {α β : Type} (t : List (α × β)) : List (β × α) :=
  t.map fun p => (p.2, p.1)

/-- R16: the P-Box inverse map. -/
def pboxInverse : List (Fin 12 × Fin 12) := invertTable pboxForward

/-- R18: the S-Box inverse map. -/
def sboxInverse : List (Group × Group) := invertTable sboxForward

/-- R19: a table is a bijection of the index set `dom` when its keys are exactly `dom`, each once, and its values too. -/
def isBijectionOn {α : Type} [DecidableEq α] (dom : List α) (t : List (α × α)) : Bool :=
  (t.map Prod.fst).isPerm dom && (t.map Prod.snd).isPerm dom

/-- The four tables as a software model would build them at start-up (R122). -/
structure BoxTables where
  p : List (Fin 12 × Fin 12)
  pInv : List (Fin 12 × Fin 12)
  s : List (Group × Group)
  sInv : List (Group × Group)
  deriving DecidableEq, Repr

/-- The index set `0..11` of the P-Box (R15). -/
def pboxIndices : List (Fin 12) := [0, 1, 2, 3, 4, 5, 6, 7, 8, 9, 10, 11]

/-- The values `0..7` of the S-Box (R17). -/
def sboxValues : List Group := [0, 1, 2, 3, 4, 5, 6, 7]

/-- R122: building the tables from two forward maps; "fail to start if either forward table is not a bijection". -/
def buildTables (p : List (Fin 12 × Fin 12)) (s : List (Group × Group)) : Option BoxTables :=
  if isBijectionOn pboxIndices p && isBijectionOn sboxValues s then
    some { p := p, pInv := invertTable p, s := s, sInv := invertTable s }
  else none

end Sys2Proof.Machine
end

