-- ==== Sys2Proof/Machine/Pbox.lean ====
section
/-! DEFINITION. pbox_permutation (spec 41_pbox_permutation.md R57 to R63). -/

namespace Sys2Proof.Machine

/-- R57, R58: "For every `(from,to)` pair in the active map, `output[to] = input[from]`." -/
def permute (active : List (Fin 12 × Fin 12)) (a : Block) : Block :=
  active.foldl (fun y pair => setChar y pair.2 (charAt a pair.1)) 0#12

/-- R63: the unit with its one select input: `inv = 0` the forward map, `inv = 1` the inverse map. -/
def pboxUnit (inv : Bool) (a : Block) : Block := permute (if inv then pboxInverse else pboxForward) a

/-- R57: the forward P-Box on one block. -/
def permBlock (a : Block) : Block := pboxUnit false a

/-- R58: the inverse P-Box on one block. -/
def permiBlock (a : Block) : Block := pboxUnit true a

/-- R57 `PERM a`. -/
def execPerm (a : Block) (s : State) : Result := answer (.ok (permBlock a)) s

/-- R58 `PERMI a`. -/
def execPermi (a : Block) (s : State) : Result := answer (.ok (permiBlock a)) s

end Sys2Proof.Machine
end

