-- ==== Sys2Proof/Machine/Sbox.lean ====
section
/-! DEFINITION. sbox_lookup (spec 42_sbox_lookup.md R64 to R71). -/

namespace Sys2Proof.Machine

/-- R64, R69: one group looked up in the active map; no entry raises `LookupError`. -/
def lookupGroup (active : List (Group × Group)) (g : Group) : Except BlockError Group :=
  match active.lookup g with
  | some r => .ok r
  | none => .error .lookupError

/-- R64, R71: the unit with its select input: `inv = 0` the map `S`, `inv = 1` the map `SI`. -/
def sboxUnit (inv : Bool) (g : Group) : Except BlockError Group :=
  lookupGroup (if inv then sboxInverse else sboxForward) g

/-- R65: the four lanes of a block side by side, group 0 first (R111), the results in group order. -/
def onGroups (lane : Group → Except BlockError Group) (a : Block) : Except BlockError Block := do
  let r0 ← lane (groupAt a 0)
  let r1 ← lane (groupAt a 1)
  let r2 ← lane (groupAt a 2)
  let r3 ← lane (groupAt a 3)
  return ofGroups r0 r1 r2 r3

/-- R66: the forward S-Box on one block. -/
def subBlock (a : Block) : Except BlockError Block := onGroups (sboxUnit false) a

/-- R67: the inverse S-Box on one block. -/
def subiBlock (a : Block) : Except BlockError Block := onGroups (sboxUnit true) a

/-- R66 `SUB a`. -/
def execSub (a : Block) (s : State) : Result := answer (subBlock a) s

/-- R67 `SUBI a`. -/
def execSubi (a : Block) (s : State) : Result := answer (subiBlock a) s

end Sys2Proof.Machine
end

