-- ==== Sys2Proof/Machine/XorEngine.lean ====
section
/-! DEFINITION. bitstring_xor_engine (spec 40_xor_engine.md R53 to R56). -/

namespace Sys2Proof.Machine

/-- R53 `XOR12`: positional exclusive-or of two blocks. -/
def xor12 (a b : Block) : Block := a ^^^ b

/-- R53 `XOR a, b`. It cannot fail on 12-bit operands. -/
def execXor (a b : Block) (s : State) : Result := answer (.ok (xor12 a b)) s

end Sys2Proof.Machine
end

