-- ==== Sys2Proof/Machine/Cipher.lean ====
section
/-! DEFINITION. two_round_spn_cipher (spec 43_spn_cipher.md R72 to R79): compositions of the other units, and nothing more (R77). -/

namespace Sys2Proof.Machine

/-- R72 `ROUND(x, k)`: mix in the key, permute, substitute. -/
def roundBlock (x k : Block) : Except BlockError Block := subBlock (permBlock (xor12 x k))

/-- R72 `UNROUND(x, k)`: inverse substitute, inverse permute, then the key. -/
def unroundBlock (x k : Block) : Except BlockError Block := do
  let u ← subiBlock x
  return xor12 (permiBlock u) k

/-- R74: two-round encryption of one block; the key of round 2 is `kx = XOR12(b, c)` (R73). -/
def encBlock (a b c : Block) : Except BlockError Block := do
  let s1 ← roundBlock a b
  roundBlock s1 (xor12 b c)

/-- R75: two-round decryption of one block, undoing round 2 first. -/
def decBlock (a b c : Block) : Except BlockError Block := do
  let mid ← unroundBlock a (xor12 b c)
  unroundBlock mid b

/-- R74 `ENC a, b, c`. -/
def execEnc (a b c : Block) (s : State) : Result := answer (encBlock a b c) s

/-- R75 `DEC a, b, c`. -/
def execDec (a b c : Block) (s : State) : Result := answer (decBlock a b c) s

end Sys2Proof.Machine
end

