-- ==== Sys2Proof/Machine/Dispatch.lean ====
section
/-! DEFINITION. One arm per operation (spec 30_encoding.md R44). -/

namespace Sys2Proof.Machine

/-- The meaning of an operation accepted at an edge. -/
def exec (i : Instr) (s : State) : Host.Outcome State Fault Refusal :=
  match i with
  | .xor a b => Sys2Proof.Machine.execXor a b s
  | .perm a => Sys2Proof.Machine.execPerm a s
  | .permi a => Sys2Proof.Machine.execPermi a s
  | .sub a => Sys2Proof.Machine.execSub a s
  | .subi a => Sys2Proof.Machine.execSubi a s
  | .enc a b c => Sys2Proof.Machine.execEnc a b c s
  | .dec a b c => Sys2Proof.Machine.execDec a b c s

end Sys2Proof.Machine
end

