-- ==== Sys2Proof/Machine/Step.lean ====
section
/-! DEFINITION. One step of the machine is one rising edge of `clk` (spec 10_state.md R24, 70_reset_and_hazards.md R119; log 2). -/

namespace Sys2Proof.Machine

/-- The command word on the pins is decoded and run; a reserved word raises its error (R46, R49). -/
def acceptCommand (w : Cmd) (s : State) : Host.Outcome State Fault Refusal :=
  match decode w with
  | .ok i => exec i s
  | .error _ => execReserved s

/-- One rising edge of `clk`. With `rst = 1` nothing is accepted, whatever `cmd_valid` is (R119). With `rst = 0` a command is
accepted exactly when `cmd_valid = 1`, never stalled (R24), and then the response that is due, if any, appears. -/
def step (s : State) : Host.Outcome State Fault Refusal :=
  if (pinsNow s).rst then .next (resetEdge s)
  else if (pinsNow s).cmdValid then afterExec (acceptCommand (pinsNow s).cmd (beginEdge s))
  else .next (endEdge (beginEdge s))

/-- `s` with the word of the low `nbits` bits of `w` on the pins at the coming edge (`rst = 0`, `cmd_valid = 1`): where a step
takes its instruction from (log 3). -/
def State.withFetchWord (s : State) (nbits w : Nat) : State :=
  { s with inputs := { rst := false, cmdValid := true, cmd := BitVec.ofNat 40 (w % 2 ^ nbits) } :: s.inputs.tail }

end Sys2Proof.Machine
end

