-- ==== Sys2Proof/Machine/Transaction.lean ====
section
/-! DEFINITION. The block at transaction level: the function `Exec` from a command word to its response word, applied to a list of
commands one by one (spec 00_scope.md R12, 30_encoding.md R49), and what the ports then show at each edge
(10_state.md R24, 70_reset_and_hazards.md R119). -/

namespace Sys2Proof.Machine

/-- R49: how each operation ends, as a function of its operands alone. -/
def instrResult : Instr → Except BlockError Block
  | .xor a b => .ok (xor12 a b)
  | .perm a => .ok (permBlock a)
  | .permi a => .ok (permiBlock a)
  | .sub a => subBlock a
  | .subi a => subiBlock a
  | .enc a b c => encBlock a b c
  | .dec a b c => decBlock a b c

/-- R49 `Exec`: total on all `2^40` words. -/
def execWord (w : Cmd) : Rsp :=
  match decode w with
  | .ok i => rspOf (instrResult i)
  | .error _ => errRsp .invalidArgument

/-- R12: a list of command words goes in, the list of their response words comes out. -/
def runCommands (ws : List Cmd) : List Rsp := ws.map execWord

/-- The pins at edge `t` of a list of edges; past its end the host presents nothing (log 3). -/
def pinsAt (ins : List EdgeInput) (t : Nat) : EdgeInput := ins.getD t EdgeInput.idle

/-- R24, R119: the command accepted at an edge: `rst = 0` and `cmd_valid = 1`. -/
def acceptedBy (p : EdgeInput) : Option Cmd :=
  if !p.rst && p.cmdValid then some p.cmd else none

/-- Whether `rst` is 1 at some edge from `t` to `t + n`. -/
def resetWithin (ins : List EdgeInput) (t n : Nat) : Bool :=
  (List.range (n + 1)).any fun k => (pinsAt ins (t + k)).rst

/-- R24 and R119 in one line: at edge `t` the ports carry `Exec` of the command accepted `latency` edges before, if there was one
and no reset came since; `none` is `rsp_valid = 0`. -/
def outputAt (latency : Nat) (ins : List EdgeInput) (t : Nat) : Option Rsp :=
  if latency ≤ t then
    match acceptedBy (pinsAt ins (t - latency)) with
    | some w => if resetWithin ins (t - latency) latency then none else some (execWord w)
    | none => none
  else none

end Sys2Proof.Machine
end

