-- ==== Sys2Proof/Machine/Script.lean ====
section
/-! DEFINITION. The host script, the notation in which commands are written (spec 30_encoding.md R50 to R52). Substituting names by
values is the host's work; the block sees only the resulting words (R50). -/

namespace Sys2Proof.Machine

/-- R50: the name of a line, as its characters. -/
abbrev LineName := List Char

/-- R44: the seven mnemonics. -/
inductive Mnemonic where
  | xor
  | perm
  | permi
  | sub
  | subi
  | enc
  | dec
  deriving DecidableEq, Repr

/-- R44, R50: the mnemonic as written, in upper case. -/
def Mnemonic.text : Mnemonic → List Char
  | .xor => ['X', 'O', 'R']
  | .perm => ['P', 'E', 'R', 'M']
  | .permi => ['P', 'E', 'R', 'M', 'I']
  | .sub => ['S', 'U', 'B']
  | .subi => ['S', 'U', 'B', 'I']
  | .enc => ['E', 'N', 'C']
  | .dec => ['D', 'E', 'C']

/-- R52: the mnemonic of an operation. -/
def mnemonicOf : Instr → Mnemonic
  | .xor _ _ => .xor
  | .perm _ => .perm
  | .permi _ => .permi
  | .sub _ => .sub
  | .subi _ => .subi
  | .enc _ _ _ => .enc
  | .dec _ _ _ => .dec

/-- R50: an operand is a 12-bit literal or the name given to an earlier line. -/
inductive ScriptOperand where
  | lit (b : Block)
  | name (n : LineName)
  deriving DecidableEq, Repr

/-- R50, R51: a line of a script: an operation, an arbitrary word, or one of the three pseudo-instructions. A `RAW` line has no name:
R50 prints it without one and does not say that it may have one (DESIGN CHOICE, log 11). -/
inductive ScriptLine where
  | op (result : Option LineName) (m : Mnemonic) (operands : List ScriptOperand)
  | raw (w : Cmd)
  | kmix (n : LineName) (k1 k2 : ScriptOperand)
  | round (n : LineName) (x k : ScriptOperand)
  | unround (n : LineName) (x k : ScriptOperand)
  deriving DecidableEq, Repr

/-- Why a script has no meaning. All are the host's mistakes, found before a word is presented. -/
inductive ScriptError where
  /-- Not the number of operands the mnemonic takes (R50). -/
  | operandCount (m : Mnemonic)
  /-- A name no earlier line has (R50). -/
  | unknownName (n : LineName)
  /-- "A name may be used only if that earlier response had `st = 0`" (R50). Never met in a script of this form: only an operation's line
  has a name, its status is `OK`, and a `RAW` line has none (DESIGN CHOICE, log 11). -/
  | failedName (n : LineName)
  /-- A name given to two lines; R50 does not say which one it would stand for (log 11). -/
  | nameGivenTwice (n : LineName)
  deriving DecidableEq, Repr

/-- A line that is one command: what the pseudo-instructions expand into. A `RAW` line has no name (log 11). -/
inductive CommandLine where
  | op (result : Option LineName) (m : Mnemonic) (operands : List ScriptOperand)
  | raw (w : Cmd)
  deriving DecidableEq, Repr

/-- R51: the expansions of the pseudo-instructions; every other line is itself. -/
def ScriptLine.expand : ScriptLine → List CommandLine
  | .op r m xs => [.op r m xs]
  | .raw w => [.raw w]
  | .kmix n k1 k2 => [.op (some n) .xor [k1, k2]]
  | .round n x k =>
    [.op (some (n ++ ['.', 'r'])) .xor [x, k],
     .op (some (n ++ ['.', 'p'])) .perm [.name (n ++ ['.', 'r'])],
     .op (some n) .sub [.name (n ++ ['.', 'p'])]]
  | .unround n x k =>
    [.op (some (n ++ ['.', 'u'])) .subi [x],
     .op (some (n ++ ['.', 'p'])) .permi [.name (n ++ ['.', 'u'])],
     .op (some n) .xor [.name (n ++ ['.', 'p']), k]]

/-- R50: the instruction of a mnemonic with its operands; `XOR` takes two, the box operations one, `ENC` and `DEC` three. -/
def assemble : Mnemonic → List Block → Except ScriptError Instr
  | .xor, [a, b] => .ok (.xor a b)
  | .perm, [a] => .ok (.perm a)
  | .permi, [a] => .ok (.permi a)
  | .sub, [a] => .ok (.sub a)
  | .subi, [a] => .ok (.subi a)
  | .enc, [a, b, c] => .ok (.enc a b c)
  | .dec, [a, b, c] => .ok (.dec a b c)
  | m, _ => .error (.operandCount m)

/-- R50: the value of an operand, given the responses of the named lines so far. -/
def resolve (env : List (LineName × Rsp)) : ScriptOperand → Except ScriptError Block
  | .lit b => .ok b
  | .name n =>
    match env.lookup n with
    | none => .error (.unknownName n)
    | some r => if rspStatus r = 0#2 then .ok (rspResult r) else .error (.failedName n)

/-- The names after a line with response `r`; a name may be given once. -/
def recordName (env : List (LineName × Rsp)) (name : Option LineName) (r : Rsp) :
    Except ScriptError (List (LineName × Rsp)) :=
  match name with
  | none => .ok env
  | some n => if (env.lookup n).isSome then .error (.nameGivenTwice n) else .ok ((n, r) :: env)

/-- The command word of a line, and its name; a `RAW` line has none (DESIGN CHOICE, log 11). -/
def lineWord (env : List (LineName × Rsp)) : CommandLine → Except ScriptError (Cmd × Option LineName)
  | .op name m operands => do
    let xs ← operands.mapM (resolve env)
    let i ← assemble m xs
    return (encode i, name)
  | .raw w => .ok (w, none)

/-- Lines presented to the block top to bottom (R50): the command words and their responses. -/
def runLines : List (LineName × Rsp) → List CommandLine → Except ScriptError (List (Cmd × Rsp))
  | _, [] => .ok []
  | env, line :: rest => do
    let wn ← lineWord env line
    let env' ← recordName env wn.2 (execWord wn.1)
    let tail ← runLines env' rest
    return (wn.1, execWord wn.1) :: tail

/-- R50, R51: a whole script, its pseudo-instructions expanded. -/
def runScript (lines : List ScriptLine) : Except ScriptError (List (Cmd × Rsp)) :=
  runLines [] (lines.flatMap ScriptLine.expand)

/-! ### Literals (R10, R50) -/

/-- A hexadecimal digit; upper and lower case (log 11). -/
def hexValue (c : Char) : Option Nat :=
  if '0' ≤ c ∧ c ≤ '9' then some (c.toNat - 48)
  else if 'A' ≤ c ∧ c ≤ 'F' then some (c.toNat - 55)
  else if 'a' ≤ c ∧ c ≤ 'f' then some (c.toNat - 87)
  else none

/-- A binary digit. -/
def binValue (c : Char) : Option Nat :=
  if c = '0' then some 0 else if c = '1' then some 1 else none

/-- The number of a list of digits in a base, most significant first. -/
def digitsValue (base : Nat) (ds : List Nat) : Nat := ds.foldl (fun n d => base * n + d) 0

/-- R50: a 12-bit literal: `0x` and three hexadecimal digits, or `0b` and twelve binary digits. -/
def parseLiteral : List Char → Option Block
  | '0' :: 'x' :: ds =>
    if ds.length = 3 then (ds.mapM hexValue).map fun vs => BitVec.ofNat 12 (digitsValue 16 vs) else none
  | '0' :: 'b' :: ds =>
    if ds.length = 12 then (ds.mapM binValue).map fun vs => BitVec.ofNat 12 (digitsValue 2 vs) else none
  | _ => none

/-- The hexadecimal digit of a value below 16, in upper case. -/
def hexDigit (v : Nat) : Char := if v < 10 then Char.ofNat (48 + v) else Char.ofNat (55 + v)

/-- The `n` hexadecimal digits of a number, most significant first. -/
def hexDigits (n v : Nat) : List Char := (List.range n).map fun i => hexDigit (v / 16 ^ (n - 1 - i) % 16)

/-- R10: a block as a hexadecimal literal. -/
def blockLiteral (a : Block) : List Char := ['0', 'x'] ++ hexDigits 3 a.toNat

/-- R10: a block as a binary literal. -/
def blockBinaryLiteral (a : Block) : List Char :=
  ['0', 'b'] ++ (List.finRange 12).map fun i => if charAt a i then '1' else '0'

/-- R41: a command word as ten hexadecimal digits `O AAA BBB CCC`, written without the spaces. -/
def cmdHex (w : Cmd) : List Char := hexDigits 10 w.toNat

/-- R10: a response word as four hexadecimal digits. -/
def rspHex (r : Rsp) : List Char := hexDigits 4 r.toNat

/-! ### Lines as written (R50, R51) -/

/-- The tokens of a line: spaces separate, and ',' and '=' stand alone (log 11). -/
def lineTokens : List Char → List (List Char)
  | [] => []
  | c :: rest =>
    if c = ' ' then [] :: lineTokens rest
    else if c = ',' ∨ c = '=' then [] :: [c] :: [] :: lineTokens rest
    else match lineTokens rest with
      | [] => [[c]]
      | t :: ts => (c :: t) :: ts

/-- R50: an operand: a literal starts with '0', anything else is a name. -/
def parseOperand : List Char → Option ScriptOperand
  | [] => none
  | '0' :: rest => (parseLiteral ('0' :: rest)).map .lit
  | n => some (.name n)

/-- R50: operands separated by commas. -/
def parseOperands : List (List Char) → Option (List ScriptOperand)
  | [] => none
  | [x] => (parseOperand x).map fun o => [o]
  | x :: [','] :: rest => do
    let o ← parseOperand x
    let os ← parseOperands rest
    return o :: os
  | _ => none

/-- R50: the seven mnemonics, upper case. -/
def parseMnemonic (t : List Char) : Option Mnemonic :=
  [Mnemonic.xor, .perm, .permi, .sub, .subi, .enc, .dec].find? fun m => m.text == t

/-- R50: `RAW 0x<ten hex digits>`. -/
def parseRaw : List Char → Option Cmd
  | '0' :: 'x' :: ds =>
    if ds.length = 10 then (ds.mapM hexValue).map fun vs => BitVec.ofNat 40 (digitsValue 16 vs) else none
  | _ => none

/-- R51: `KMIX n = k1, k2`, `ROUND n = x, k`, `UNROUND n = x, k`. -/
def parsePseudo (t : List Char) : Option (LineName → ScriptOperand → ScriptOperand → ScriptLine) :=
  if t = ['K', 'M', 'I', 'X'] then some .kmix
  else if t = ['R', 'O', 'U', 'N', 'D'] then some .round
  else if t = ['U', 'N', 'R', 'O', 'U', 'N', 'D'] then some .unround
  else none

/-- R50, R51: one line of a script. `RAW` is read as R50 prints it, without a name; whether it may be given one, which "only if that
earlier response had `st = 0`" suggests, R50 leaves open, and a named `RAW` line is no line here (DESIGN CHOICE, log 11). -/
def parseLine (line : List Char) : Option ScriptLine :=
  match (lineTokens line).filter (fun t => !t.isEmpty) with
  | [['R', 'A', 'W'], w] => (parseRaw w).map .raw
  | t0 :: t1 :: t2 :: rest =>
    if t1 = ['='] then do
      let m ← parseMnemonic t2
      let os ← parseOperands rest
      return .op (some t0) m os
    else if t2 = ['='] then do
      let mk ← parsePseudo t0
      match ← parseOperands rest with
      | [x, k] => return mk t1 x k
      | _ => none
    else do
      let m ← parseMnemonic t0
      let os ← parseOperands (t1 :: t2 :: rest)
      return .op none m os
  | [t0, t1] => do
    let m ← parseMnemonic t0
    let os ← parseOperands [t1]
    return .op none m os
  | _ => none

end Sys2Proof.Machine
end

