-- ==== Sys2Proof/Machine/Text.lean ====
section
/-! DEFINITION. The host procedures around the block (spec 45_host_procedures.md R81 to R98; 60_exceptions.md R105, R108): nothing here is
hardware (R81). A bit-string is a list of bits, a text a list of code points. -/

namespace Sys2Proof.Machine

/-- R105: the error kinds of the host procedures; `outOfRange` exists only in `encodeText` and has no status code. -/
inductive ErrorKind where
  | invalidArgument
  | lookupError
  | outOfRange
  deriving DecidableEq, Repr

/-- The host cases to which the spec gives neither a result nor an error kind, treatment `refuse` (log 8). Safe. -/
inductive Unspecified where
  /-- Positional work on bit-strings of unequal lengths: `xor` (93 U1, R126). -/
  | unequalLengths
  /-- A valid bit-string of fewer than 12 bits where a block is wanted: `permute` (93 U2), or a command for a short chunk (R34). -/
  | shortBlock
  deriving DecidableEq, Repr

/-- How a host procedure ends without a result. -/
inductive ProcStop where
  /-- R106: the procedure, and every procedure that called it, ends with this kind. -/
  | raised (k : ErrorKind)
  /-- The spec gives the case no meaning. -/
  | unspecified (u : Unspecified)
  deriving DecidableEq, Repr

/-- A host procedure's outcome (R104: errors as values). -/
abbrev Proc (α : Type) := Except ProcStop α

/-- R106 `raise`, in a host procedure. -/
def raiseKind {α : Type} (k : ErrorKind) : Proc α := .error (.raised k)

/-! ### CodePointTable (R82 to R84) -/

/-- R82: the control-picture symbol for code `v`, for `v` in 0..32. -/
def symbolOf (v : Nat) : Nat := 0x2400 + v

/-- R84: membership of the 33 reserved symbols, U+2400 to U+2420. -/
def isPicture (c : Nat) : Bool := 0x2400 ≤ c && c ≤ 0x2420

/-- R83. -/
def valueOf (c : Nat) : Proc Nat :=
  if isPicture c then .ok (c - 0x2400) else raiseKind .lookupError

/-! ### BitCodec (R85 to R92) -/

/-- The value of a bit-string read as an unsigned big-endian number (R91). -/
def bitsValue (s : BitStr) : Nat := s.foldl (fun n b => 2 * n + b.toNat) 0

/-- The `n` low bits of `v`, most significant first, left-padded with '0' (R86). -/
def bitsOf (n v : Nat) : BitStr := (List.range n).map fun i => v.testBit (n - 1 - i)

/-- Consecutive chunks of `n` characters, the last one holding the remainder (R90). -/
def chunks (n : Nat) (s : BitStr) : List BitStr :=
  (List.range ((s.length + n - 1) / n)).map fun j => (s.drop (n * j)).take n

/-- `s` left-padded with '0' to length `n` (R88). -/
def padLeft (n : Nat) (s : BitStr) : BitStr := List.replicate (n - s.length) false ++ s

/-- The smallest multiple of `m` that is at least `n` (R87, R88). -/
def roundUp (m n : Nat) : Nat := (n + m - 1) / m * m

/-- R85: the alphabet check, for a bit-string given as characters: `InvalidArgument` outside '0', '1'. -/
def checkAlphabet (cs : List Char) : Proc BitStr :=
  if cs.all (fun c => c == '0' || c == '1') then .ok (cs.map fun c => c == '1') else raiseKind .invalidArgument

/-- R85: an operation on one bit-string, given the characters: the alphabet is checked first. -/
def onChars {α : Type} (op : BitStr → Proc α) (cs : List Char) : Proc α := do
  let s ← checkAlphabet cs
  op s

/-- R85: an operation on two bit-strings, given the characters (`xor`, R89). -/
def onChars2 {α : Type} (op : BitStr → BitStr → Proc α) (as bs : List Char) : Proc α := do
  let a ← checkAlphabet as
  let b ← checkAlphabet bs
  op a b

/-- R85: an operation on three bit-strings, given the characters (`alignToTriple`, R88). -/
def onChars3 {α : Type} (op : BitStr → BitStr → BitStr → Proc α) (as bs cs : List Char) : Proc α := do
  let a ← checkAlphabet as
  let b ← checkAlphabet bs
  let c ← checkAlphabet cs
  op a b c

/-- R86: the 8-bit value of one character. -/
def charCode (c : Nat) : Proc Nat :=
  if isPicture c then valueOf c
  else if c ≤ 255 then .ok c
  else raiseKind .outOfRange

/-- R86: 8 bits a character, in input order; the first character that fails decides (R98). -/
def encodeText (t : Text) : Proc BitStr :=
  if t.isEmpty then raiseKind .invalidArgument
  else do
    let codes ← t.mapM charCode
    return (codes.map (bitsOf Config.byteBits)).flatten

/-- R87: the character of one 8-bit group. -/
def decodeByte (v : Nat) : Nat := if v ≤ 31 then symbolOf v else v

/-- R87: right-align to a multiple of 8, decode each 8-bit group, strip the leading U+2400 characters. -/
def decodeText (s : BitStr) : Proc Text :=
  if s.isEmpty then raiseKind .invalidArgument
  else
    let padded := padLeft (roundUp Config.byteBits s.length) s
    let t := (chunks Config.byteBits padded).map fun g => decodeByte (bitsValue g)
    .ok (t.dropWhile fun c => c == symbolOf 0)

/-- R88: left-pad three bit-strings to one length, the smallest multiple of 12 that holds the longest. -/
def alignToTriple (a b c : BitStr) : Proc (BitStr × BitStr × BitStr) :=
  if a.isEmpty || b.isEmpty || c.isEmpty then raiseKind .invalidArgument
  else
    let n := roundUp Config.blockBits (max (max a.length b.length) c.length)
    .ok (padLeft n a, padLeft n b, padLeft n c)

/-- R89: positional exclusive-or of two bit-strings. An empty argument is no valid bit-string (R85; log 9); unequal lengths have
no meaning (93 U1; log 8). -/
def xorBits (a b : BitStr) : Proc BitStr :=
  if a.isEmpty || b.isEmpty then raiseKind .invalidArgument
  else if a.length ≠ b.length then .error (.unspecified .unequalLengths)
  else .ok (List.zipWith (fun x y => x ^^ y) a b)

/-- R90. -/
def splitIntoBlocks (s : BitStr) : Proc (List BitStr) :=
  if s.isEmpty then raiseKind .invalidArgument else .ok (chunks Config.blockBits s)

/-- R91. -/
def bitsToInt (s : BitStr) : Proc Nat :=
  if s.isEmpty then raiseKind .invalidArgument else .ok (bitsValue s)

/-- R92, its pseudocode; it names no error (log 10). -/
def trimToPreviousMultipleOf12 (s : BitStr) : BitStr :=
  let drop := s.length % 12
  if drop = 0 then s
  else if (s.take drop).all (· == false) then s.drop drop
  else s

/-! ### BoxTables at string level (R93, R94) -/

/-- The block of a bit-string of exactly 12 characters. -/
def blockOfBits (s : BitStr) : Option Block :=
  if s.length = Config.blockBits then some (BitVec.ofNat 12 (bitsValue s)) else none

/-- The 12 characters of a block, string index 0 first (R9). -/
def bitsOfBlock (a : Block) : BitStr := (List.finRange 12).map (charAt a)

/-- R93: `permute(block12, inverse)` on a bit-string. -/
def permuteBits (inverse : Bool) (s : BitStr) : Proc BitStr :=
  if s.isEmpty || 12 < s.length then raiseKind .invalidArgument
  else match blockOfBits s with
    | some a => .ok (bitsOfBlock (pboxUnit inverse a))
    | none => .error (.unspecified .shortBlock)

/-- The block's error kinds among SC's (R105). -/
def kindOf : BlockError → ErrorKind
  | .invalidArgument => .invalidArgument
  | .lookupError => .lookupError

/-- R94: one 3-bit group through the active map; a value with no entry raises `LookupError`. -/
def substituteGroup (inverse : Bool) (g : BitStr) : Proc BitStr :=
  match sboxUnit inverse (BitVec.ofNat 3 (bitsValue g)) with
  | .ok r => .ok (bitsOf Config.groupBits r.toNat)
  | .error k => raiseKind (kindOf k)

/-- R94: `substitute(block, inverse)` on a bit-string whose length is a multiple of 3. -/
def substituteBits (inverse : Bool) (s : BitStr) : Proc BitStr :=
  if s.isEmpty || s.length % Config.groupBits ≠ 0 then raiseKind .invalidArgument
  else do
    let rs ← (chunks Config.groupBits s).mapM (substituteGroup inverse)
    return rs.flatten

/-- R62: `permute` on a sequence of blocks, the results concatenated in order. That the sequence is a list, and that the empty one
answers the empty bit-string without an error, is the model's choice (DESIGN CHOICE, 91 N16 against R85: log 15). -/
def permuteSeq (inverse : Bool) (blocks : List BitStr) : Proc BitStr := do
  let rs ← blocks.mapM (permuteBits inverse)
  return rs.flatten

/-- R70: `substitute` on a sequence of blocks, the results concatenated in order. That the sequence is a list, and that the empty one
answers the empty bit-string without an error, is the model's choice (DESIGN CHOICE, 91 N16 against R85: log 15). -/
def substituteSeq (inverse : Bool) (blocks : List BitStr) : Proc BitStr := do
  let rs ← blocks.mapM (substituteBits inverse)
  return rs.flatten

/-! ### The text-level cipher (R95, R96) -/

/-- R95 steps 4 and 5: "split into 12-bit blocks; `permute` each block (forward); `substitute` each permuted block (forward)". -/
def forwardBoxes (s : BitStr) : Proc BitStr := do
  let blocks ← splitIntoBlocks s
  let permuted ← blocks.mapM (permuteBits false)
  substituteSeq false permuted

/-- R96 steps 4 and 6: "`substitute` each (inverse); split result into blocks; `permute` each (inverse)". -/
def inverseBoxes (s : BitStr) : Proc BitStr := do
  let blocks ← splitIntoBlocks s
  let substituted ← substituteSeq true blocks
  let again ← splitIntoBlocks substituted
  permuteSeq true again

/-- R95 steps 4 and 5 on aligned bit-strings. -/
def encryptBits (pt k1 k2 : BitStr) : Proc BitStr := do
  let r1 ← xorBits pt k1
  let s1 ← forwardBoxes r1
  let kx ← xorBits k1 k2
  let r2 ← xorBits s1 kx
  forwardBoxes r2

/-- R96 steps 4 to 7 on aligned bit-strings. -/
def decryptBits (ct k1 k2 : BitStr) : Proc BitStr := do
  let p2 ← inverseBoxes ct
  let kx ← xorBits k1 k2
  let mid ← xorBits p2 kx
  let p1 ← inverseBoxes mid
  xorBits p1 k1

/-- R95 steps 1 to 3 and 6, around a way of doing steps 4 and 5. -/
def encryptWith (core : BitStr → BitStr → BitStr → Proc BitStr) (plaintext key1 key2 : Text) : Proc Text :=
  if plaintext.isEmpty || key1.isEmpty || key2.isEmpty then raiseKind .invalidArgument
  else do
    let pt ← encodeText plaintext
    let k1 ← encodeText key1
    let k2 ← encodeText key2
    let aligned ← alignToTriple pt k1 k2
    let s2 ← core aligned.1 aligned.2.1 aligned.2.2
    decodeText s2

/-- R96 steps 1 to 3 and 8, around a way of doing steps 4 to 7. -/
def decryptWith (core : BitStr → BitStr → BitStr → Proc BitStr) (ciphertext key1 key2 : Text) : Proc Text :=
  if ciphertext.isEmpty || key1.isEmpty || key2.isEmpty then raiseKind .invalidArgument
  else do
    let ct ← encodeText ciphertext
    let k1 ← encodeText key1
    let k2 ← encodeText key2
    let aligned ← alignToTriple (trimToPreviousMultipleOf12 ct) k1 k2
    let ptBits ← core aligned.1 aligned.2.1 aligned.2.2
    decodeText ptBits

/-- R95: `encrypt(plaintext, key1, key2)`, SC's seven steps. -/
def encrypt : Text → Text → Text → Proc Text := encryptWith encryptBits

/-- R96: `decrypt(ciphertext, key1, key2)`, SC's nine steps. -/
def decrypt : Text → Text → Text → Proc Text := decryptWith decryptBits

/-! ### The host driving the block (R97) -/

/-- R97: one command for one block index. A response with another status than `OK` fails the whole call (with the kind of its
status, log 13); status 3 is never produced (93 U8). -/
def sendCommand (mk : Block → Block → Block → Instr) (a b c : Block) : Proc BitStr :=
  let r := execWord (encode (mk a b c))
  if rspStatus r = 0#2 then .ok (bitsOfBlock (rspResult r))
  else if rspStatus r = statusCode .lookupError then raiseKind .lookupError
  else raiseKind .invalidArgument

/-- The blocks of an aligned bit-string (R31, R33); for a short chunk there is no command to send (R34). -/
def alignedBlocks (s : BitStr) : Proc (List Block) :=
  (chunks Config.blockBits s).mapM fun g =>
    match blockOfBits g with
    | some a => .ok a
    | none => .error (.unspecified .shortBlock)

/-- R97: one command per block index, block 0 first, the `y` fields written in block order. The three bit-strings have one length
(R126); of three empty ones the result is empty (DESIGN CHOICE, log 15). -/
def driveBlocks (mk : Block → Block → Block → Instr) (s k1 k2 : BitStr) : Proc BitStr :=
  if s.length ≠ k1.length ∨ s.length ≠ k2.length then .error (.unspecified .unequalLengths)
  else do
    let as ← alignedBlocks s
    let bs ← alignedBlocks k1
    let cs ← alignedBlocks k2
    let rs ← (as.zip (bs.zip cs)).mapM fun t => sendCommand mk t.1 t.2.1 t.2.2
    return rs.flatten

/-- R97: `encrypt` by `ENC` commands. -/
def encryptByCommands : Text → Text → Text → Proc Text := encryptWith (driveBlocks Instr.enc)

/-- R97: `decrypt` by `DEC` commands. -/
def decryptByCommands : Text → Text → Text → Proc Text := decryptWith (driveBlocks Instr.dec)

end Sys2Proof.Machine
end

