-- ==== Sys2Proof/Safety.lean ====
section
/-! DEFINITION. What is true of the block between any two edges, in the terms claims use
(spec 10_state.md R24, R26; 30_encoding.md R43; 60_exceptions.md R107). -/

namespace Sys2Proof.Machine

/-- A response a conforming block may give: well formed, and not `LOOKUP_ERROR`, which the given tables never raise (R49, R107). -/
def conformingRsp (r : Rsp) : Bool := Rsp.wellFormed r && rspStatus r != statusCode .lookupError

/-- The in-flight queue as it stands between edges: responses come in command order, at most one an edge, each due within
`LATENCY` edges (R24, R26). -/
def queueOrdered (latency : Nat) : List InFlight → Bool
  | [] => true
  | e :: rest => decide (1 ≤ e.wait) && decide (e.wait ≤ latency) && rest.all (fun f => decide (e.wait < f.wait))
      && queueOrdered latency rest

/-- The invariant of every state between edges: the queue is ordered, and every response in flight, at the ports or read by the
host is one a conforming block may give. -/
abbrev State.Inv (s : State) : Prop :=
  queueOrdered s.latency s.inflight = true ∧
  (s.inflight.all fun e => conformingRsp e.rsp) = true ∧
  (s.out.all conformingRsp) = true ∧
  (s.seen.all conformingRsp) = true

end Sys2Proof.Machine
end

