-- ==== Sys2Proof/Certificates/Slice0/Obligations.lean ====
section
/-! DEFINITION. The statements about the model, each from the rule of the spec its docstring names. The small definitions under
Sys2Proof.Spec are written from the spec's own tables and words, apart from the model's. -/

namespace Sys2Proof.Spec

open Sys2Proof Sys2Proof.Machine

/-- The row `P(i)` of R15. -/
def pMap : Fin 12 → Fin 12 := ![4, 6, 1, 11, 8, 5, 3, 2, 10, 7, 0, 9]

/-- The row `PI(i)` of R16. -/
def piMap : Fin 12 → Fin 12 := ![10, 2, 7, 6, 0, 5, 1, 9, 4, 11, 8, 3]

/-- The row `S(g)` of R17. -/
def sMap (g : Group) : Group := BitVec.ofNat 3 (([4, 2, 6, 1, 7, 0, 5, 3] : List Nat).getD g.toNat 0)

/-- The row `SI(g)` of R18. -/
def siMap (g : Group) : Group := BitVec.ofNat 3 (([5, 3, 1, 7, 0, 6, 2, 4] : List Nat).getD g.toNat 0)

/-- The source bits of R59's columns, one pair for numeric bit `j` of the result: `PERM: y[j] = a[·]`, `PERMI: y[j] = a[·]`. -/
def wiring : Fin 12 → Nat × Nat :=
  ![(8, 2), (3, 11), (0, 4), (7, 1), (2, 9), (10, 8), (6, 6), (11, 3), (5, 0), (4, 10), (9, 5), (1, 7)]

/-- The one-hot images of R59 for the input with only numeric bit `j` set: `PERM`, `PERMI`. -/
def oneHot : Fin 12 → Block × Block :=
  ![(0x004, 0x100), (0x800, 0x008), (0x010, 0x001), (0x002, 0x080), (0x200, 0x004), (0x100, 0x400),
    (0x040, 0x040), (0x008, 0x800), (0x001, 0x020), (0x400, 0x010), (0x020, 0x200), (0x080, 0x002)]

/-- `y` is `PERM(a)` as R57 says it: `y{P(i)} = a{i}` for every `i`. -/
def IsPerm (a y : Block) : Prop := ∀ i, charAt y (pMap i) = charAt a i

/-- `y` is `PERMI(a)` as R58 says it: `y{PI(i)} = a{i}` for every `i`. -/
def IsPermi (a y : Block) : Prop := ∀ i, charAt y (piMap i) = charAt a i

/-- `y` is `SUB(a)` as R66 says it: `y[11-3k : 9-3k] = S(a[11-3k : 9-3k])`; the slice `[11-3k : 9-3k]` is three bits from `9-3k`. -/
def IsSub (a y : Block) : Prop :=
  ∀ k : Fin 4, y.extractLsb' (9 - 3 * k) 3 = sMap (a.extractLsb' (9 - 3 * k) 3)

/-- `y` is `SUBI(a)` as R67 says it. -/
def IsSubi (a y : Block) : Prop :=
  ∀ k : Fin 4, y.extractLsb' (9 - 3 * k) 3 = siMap (a.extractLsb' (9 - 3 * k) 3)

/-- R74: `y` is `ENC(a, b, c)`, stage by stage. -/
def IsEnc (a b c y : Block) : Prop :=
  ∃ r1 q1 s1 kx r2 q2, r1 = a ^^^ b ∧ IsPerm r1 q1 ∧ IsSub q1 s1 ∧ kx = b ^^^ c ∧ r2 = s1 ^^^ kx ∧ IsPerm r2 q2 ∧ IsSub q2 y

/-- R75: `y` is `DEC(a, b, c)`, stage by stage. -/
def IsDec (a b c y : Block) : Prop :=
  ∃ u2 p2 kx mid u1 p1, IsSubi a u2 ∧ IsPermi u2 p2 ∧ kx = b ^^^ c ∧ mid = p2 ^^^ kx ∧ IsSubi mid u1 ∧ IsPermi u1 p1 ∧
    y = p1 ^^^ b

/-- The number of 1 bits of a block. -/
def ones (a : Block) : Nat := (List.finRange 12).countP (charAt a)

/-- R44: the code `op[2:1]` of an operation's unit: XOR engine, P-Box, S-Box, cipher. -/
def unitOf : Instr → BitVec 2
  | .xor _ _ => 0
  | .perm _ => 1
  | .permi _ => 1
  | .sub _ => 2
  | .subi _ => 2
  | .enc _ _ _ => 3
  | .dec _ _ _ => 3

/-- R44: the sense `op[0]` of an operation: false forward or encrypt, true inverse or decrypt. -/
def senseOf : Instr → Bool
  | .xor _ _ => false
  | .perm _ => false
  | .permi _ => true
  | .sub _ => false
  | .subi _ => true
  | .enc _ _ _ => false
  | .dec _ _ _ => true

/-- R44: the match value of each row and the instruction its operand fields make. -/
def rows (a b c : Block) : List (Cmd × Instr) :=
  [(0x0000000000, .xor a b), (0x2000000000, .perm a), (0x3000000000, .permi a), (0x4000000000, .sub a),
   (0x5000000000, .subi a), (0x6000000000, .enc a b c), (0x7000000000, .dec a b c)]

/-- The operand bits an operation uses (R45), and its code. -/
def usedBits : Instr → Cmd
  | .xor _ _ => 0xFFFFFFF000
  | .perm _ => 0xFFFF000000
  | .permi _ => 0xFFFF000000
  | .sub _ => 0xFFFF000000
  | .subi _ => 0xFFFF000000
  | .enc _ _ _ => 0xFFFFFFFFFF
  | .dec _ _ _ => 0xFFFFFFFFFF

/-- The state after a command whose response is `r` has been accepted: R24 and R26, in the model's form of the queue (log 2). -/
def withResponse (s : State) (r : Rsp) : State :=
  { latency := s.latency, inflight := s.inflight ++ [{ wait := s.latency, rsp := r }], out := s.out, inputs := s.inputs,
    edge := s.edge, seen := s.seen }

/-- Whether `encodeText` has a code for a character (R86), and which. -/
def encodable (c : Nat) : Prop := c ≤ 255 ∨ (0x2400 ≤ c ∧ c ≤ 0x2420)

def codeOf (c : Nat) : Nat := if 0x2400 ≤ c ∧ c ≤ 0x2420 then c - 0x2400 else c

/-- What a character comes back as after encoding and decoding (R86, R87 (a), (b)). -/
def backAs (c : Nat) : Nat := if codeOf c ≤ 31 then 0x2400 + codeOf c else codeOf c

end Sys2Proof.Spec

section Encoding

open Sys2Proof Sys2Proof.Machine Sys2Proof.Spec

/-- O1. The words of the rules' own examples (R53, R57, R58, R66, R67, R74, R75) decode to the instruction they stand for. -/
def Obligations.ExampleWordsDecode : Prop :=
  decode 0x0123456000#40 = .ok (.xor 0x123 0x456) ∧
  decode 0x2043000000#40 = .ok (.perm 0x043) ∧
  decode 0x3844000000#40 = .ok (.permi 0x844) ∧
  decode 0x4844000000#40 = .ok (.sub 0x844) ∧
  decode 0x5EA7000000#40 = .ok (.subi 0xEA7) ∧
  decode 0x6123456789#40 = .ok (.enc 0x123 0x456 0x789) ∧
  decode 0x7618456789#40 = .ok (.dec 0x618 0x456 0x789)

/-- O2. R41, the fields of a command word: their places, their string indices, the word as a number and as ten hexadecimal digits. -/
def Obligations.CommandWordFields : Prop :=
  (∀ (op : Opcode) (a b c : Block),
    (packCmd op a b c).toNat = op.toNat * 2 ^ 36 + a.toNat * 2 ^ 24 + b.toNat * 2 ^ 12 + c.toNat ∧
    cmdOp (packCmd op a b c) = op ∧ cmdA (packCmd op a b c) = a ∧ cmdB (packCmd op a b c) = b ∧ cmdC (packCmd op a b c) = c) ∧
  (∀ w : Cmd, packCmd (cmdOp w) (cmdA w) (cmdB w) (cmdC w) = w ∧
    cmdOp w = w.extractLsb 39 36 ∧ cmdA w = w.extractLsb 35 24 ∧ cmdB w = w.extractLsb 23 12 ∧ cmdC w = w.extractLsb 11 0 ∧
    (∀ i : Fin 12, charAt (cmdA w) i = w.getLsbD (35 - i) ∧ charAt (cmdB w) i = w.getLsbD (23 - i) ∧
      charAt (cmdC w) i = w.getLsbD (11 - i)) ∧
    cmdHex w = hexDigits 1 (cmdOp w).toNat ++ hexDigits 3 (cmdA w).toNat ++ hexDigits 3 (cmdB w).toNat ++
      hexDigits 3 (cmdC w).toNat)

/-- O3. R44, the opcode map: the match-and-mask rows with their results, the meaning of the bits of `op`, and no other code defined. -/
def Obligations.DecodeFollowsTheOpcodeMap : Prop :=
  (∀ (w : Cmd) (row : Cmd × Instr), row ∈ rows (cmdA w) (cmdB w) (cmdC w) → w &&& 0xF000000000#40 = row.1 →
    decode w = .ok row.2 ∧ execWord w = rspOf (instrResult row.2)) ∧
  (∀ (w : Cmd) (i : Instr), decode w = .ok i →
    (cmdOp w).getLsbD 3 = false ∧ (cmdOp w).extractLsb' 1 2 = unitOf i ∧ (cmdOp w).getLsbD 0 = senseOf i) ∧
  (∀ w : Cmd, ((cmdOp w).getLsbD 3 = true ∨ cmdOp w = 0x1#4) → decode w = .error (.reservedOp (cmdOp w))) ∧
  (∀ w : Cmd, (cmdOp w).getLsbD 3 = false → cmdOp w ≠ 0x1#4 → ∃ i, decode w = .ok i)

/-- O4. Decoding the word of an instruction gives the instruction back, through the host's numbering of the bits too. -/
def Obligations.DecodeOfEncodeIsIdentity : Prop :=
  ∀ i : Instr, Instr.wellFormed i = true ∧ decode (encode i) = .ok i ∧ decodeTableWord 40 (encode i).toNat = some i

/-- O5. Encoding a decoded word gives the word with exactly the bits the operation does not use cleared. -/
def Obligations.EncodeOfDecodeClearsUnusedFields : Prop :=
  ∀ (w : Cmd) (i : Instr), decode w = .ok i → encode i = w &&& usedBits i

/-- O6. R45: which operand fields each operation uses, in which order, that the others are ignored whatever stands there, and that
the assembler writes zero in them. -/
def Obligations.UnusedOperandFieldsAreIgnored : Prop :=
  ∀ a b c : Block,
    (decode (packCmd 0x0 a b c) = .ok (.xor a b) ∧ decode (packCmd 0x2 a b c) = .ok (.perm a) ∧
     decode (packCmd 0x3 a b c) = .ok (.permi a) ∧ decode (packCmd 0x4 a b c) = .ok (.sub a) ∧
     decode (packCmd 0x5 a b c) = .ok (.subi a) ∧ decode (packCmd 0x6 a b c) = .ok (.enc a b c) ∧
     decode (packCmd 0x7 a b c) = .ok (.dec a b c)) ∧
    (∀ b' c' : Block,
      execWord (packCmd 0x0 a b c') = execWord (packCmd 0x0 a b c) ∧
      execWord (packCmd 0x2 a b' c') = execWord (packCmd 0x2 a b c) ∧
      execWord (packCmd 0x3 a b' c') = execWord (packCmd 0x3 a b c) ∧
      execWord (packCmd 0x4 a b' c') = execWord (packCmd 0x4 a b c) ∧
      execWord (packCmd 0x5 a b' c') = execWord (packCmd 0x5 a b c) ∧
      rspStatus (execWord (packCmd 0x0 a b' c')) = 0 ∧ rspStatus (execWord (packCmd 0x2 a b' c')) = 0 ∧
      rspStatus (execWord (packCmd 0x3 a b' c')) = 0 ∧ rspStatus (execWord (packCmd 0x4 a b' c')) = 0 ∧
      rspStatus (execWord (packCmd 0x5 a b' c')) = 0) ∧
    (encode (.xor a b) = packCmd 0x0 a b 0 ∧ encode (.perm a) = packCmd 0x2 a 0 0 ∧ encode (.permi a) = packCmd 0x3 a 0 0 ∧
     encode (.sub a) = packCmd 0x4 a 0 0 ∧ encode (.subi a) = packCmd 0x5 a 0 0)

/-- O7. R46: every one of the nine reserved codes, whatever the operands, is no operation, answers `st = 1`, `y = 0x000`, and has no
other effect: the responses to the commands before and after it are what they are without it. -/
def Obligations.ReservedCodesAnswerInvalidArgument : Prop :=
  ∀ (op : Opcode) (a b c : Block), op ∈ ([0x1, 0x8, 0x9, 0xA, 0xB, 0xC, 0xD, 0xE, 0xF] : List Opcode) →
    decode (packCmd op a b c) = .error (.reservedOp op) ∧
    execWord (packCmd op a b c) = packRsp 1 0x000 ∧
    ∀ before after : List Cmd, runCommands (before ++ packCmd op a b c :: after) =
      runCommands before ++ packRsp 1 0x000 :: runCommands after

/-- O8. R43, the fields of a response word: their places and string indices, the word as a number, the three statuses that occur,
and a result field of zero beside every status but `OK`. -/
def Obligations.ResponseWordFields : Prop :=
  (∀ (st : BitVec 2) (y : Block), (packRsp st y).toNat = st.toNat * 2 ^ 12 + y.toNat ∧
    rspStatus (packRsp st y) = st ∧ rspResult (packRsp st y) = y) ∧
  (∀ r : Rsp, packRsp (rspStatus r) (rspResult r) = r ∧ rspStatus r = r.extractLsb 13 12 ∧ rspResult r = r.extractLsb 11 0 ∧
    ∀ i : Fin 12, charAt (rspResult r) i = r.getLsbD (11 - i)) ∧
  (∀ y : Block, rspOf (.ok y) = packRsp 0 y) ∧
  rspOf (.error .invalidArgument) = packRsp 1 0x000 ∧ rspOf (.error .lookupError) = packRsp 2 0x000 ∧
  (∀ w : Cmd, rspStatus (execWord w) ≠ 3 ∧ (rspStatus (execWord w) ≠ 0 → rspResult (execWord w) = 0x000))

/-- O9. The status of a response is a function of `op` alone: `OK` for the seven defined codes, `INVALID_ARGUMENT` for the nine
reserved ones; every response conforms. (A sentence of R49 and R107, which the spec marks as derived.) -/
def Obligations.StatusFollowsTheOperationCode : Prop :=
  ∀ w : Cmd, rspStatus (execWord w) = (if Cmd.wellFormed w then 0 else 1) ∧ conformingRsp (execWord w) = true

end Encoding

section Machine

open Sys2Proof Sys2Proof.Machine Sys2Proof.Spec

/-- O10. `XOR` runs from every state: its response `{0b00, y}` with `y[j] = a[j] ^ b[j]` joins the queue and nothing else changes.
That it waits in the queue for `latency` edges is the model's form of R24 (log 2). -/
def Obligations.XorRunsFromEveryState : Prop :=
  ∀ (a b : Block) (s : State), ∃ y : Block, (∀ j : Fin 12, y.getLsbD j = (a.getLsbD j ^^ b.getLsbD j)) ∧
    exec (.xor a b) s = .next (withResponse s (packRsp 0 y))

/-- O11. `PERM` and `PERMI` run from every state, with the result R57 and R58 give (queue form: log 2). -/
def Obligations.PboxOperationsRunFromEveryState : Prop :=
  ∀ (a : Block) (s : State),
    (∃ y, IsPerm a y ∧ exec (.perm a) s = .next (withResponse s (packRsp 0 y))) ∧
    (∃ y, IsPermi a y ∧ exec (.permi a) s = .next (withResponse s (packRsp 0 y)))

/-- O12. `SUB` and `SUBI` run from every state, with the result R66 and R67 give (queue form: log 2). -/
def Obligations.SboxOperationsRunFromEveryState : Prop :=
  ∀ (a : Block) (s : State),
    (∃ y, IsSub a y ∧ exec (.sub a) s = .next (withResponse s (packRsp 0 y))) ∧
    (∃ y, IsSubi a y ∧ exec (.subi a) s = .next (withResponse s (packRsp 0 y)))

/-- O13. `ENC` and `DEC` run from every state, with the result R74 and R75 give (queue form: log 2). -/
def Obligations.CipherOperationsRunFromEveryState : Prop :=
  ∀ (a b c : Block) (s : State),
    (∃ y, IsEnc a b c y ∧ exec (.enc a b c) s = .next (withResponse s (packRsp 0 y))) ∧
    (∃ y, IsDec a b c y ∧ exec (.dec a b c) s = .next (withResponse s (packRsp 0 y)))

/-- O14. The frame of all seven operations: the ports, the pins still to come, the edge count, the record of responses and the
latency are unchanged, every command already in flight stays as it is, and exactly one response joins behind them. The block has
no other register, flag or memory (R20 to R23, R29). The queue's form is log 2, and the pins to come, the edge count and the record
of responses are the model's own fields (logs 3, 4, 6). -/
def Obligations.OperationsChangeOnlyTheQueue : Prop :=
  ∀ (i : Instr) (s t : State), exec i s = .next t →
    t.latency = s.latency ∧ t.out = s.out ∧ t.inputs = s.inputs ∧ t.edge = s.edge ∧ t.seen = s.seen ∧
    ∃ r, t.inflight = s.inflight ++ [{ wait := s.latency, rsp := r }] ∧ rspStatus r = 0

/-- O15. The machine and the transaction level agree: accepting any word, defined or reserved, from any state puts exactly
`Exec` of that word in flight; nothing of the state has a part in the response (R14, R49; queue form: log 2). -/
def Obligations.MachineAgreesWithExec : Prop :=
  ∀ (w : Cmd) (s : State), acceptCommand w s = .next (withResponse s (execWord w))

/-- O16. A step runs the decoded instruction: when the pins carry a valid command that decodes to `i`, the step is `exec i` on the
state at the beginning of the edge, and then the end of the edge; and `withFetchWord` puts a word exactly there. (A step is one edge,
log 2; the pins are a list, and `withFetchWord` stands for the host's presenting a word, log 3.) -/
def Obligations.StepRunsTheDecodedCommand : Prop :=
  (∀ (s : State) (i : Instr), (pinsNow s).rst = false → (pinsNow s).cmdValid = true → decode (pinsNow s).cmd = .ok i →
    step s = afterExec (exec i (beginEdge s))) ∧
  (∀ (s : State) (w : Cmd) (i : Instr), decode w = .ok i →
    (s.withFetchWord 40 w.toNat).inputs.tail = s.inputs.tail ∧
    step (s.withFetchWord 40 w.toNat) = afterExec (exec i (beginEdge s)))

/-- O17. What an edge does around a command: an edge with `rst = 1` empties the queue and takes `rsp_valid` to 0 whatever `cmd_valid`
is; any other edge brings each command in flight one edge nearer, and shows the oldest response when it is due; an edge with no
command does only that. That the reset edge shows no response even when one is due at it is the model's reading of R119 against R24
(DEDUCED, log 5); the queue's form is log 2, and the fields `inputs`, `edge` and `seen` are the model's own (logs 3, 4, 6). -/
def Obligations.EdgesAroundACommand : Prop :=
  (∀ s : State, (pinsNow s).rst = true →
    step s = .next { latency := s.latency, inflight := [], out := none, inputs := s.inputs.tail, edge := s.edge + 1, seen := s.seen }) ∧
  (∀ s : State, (pinsNow s).rst = false → (pinsNow s).cmdValid = false → step s = .next (endEdge (beginEdge s))) ∧
  (∀ s : State, beginEdge s =
    { latency := s.latency, inflight := s.inflight.map fun e => { wait := e.wait - 1, rsp := e.rsp }, out := none,
      inputs := s.inputs.tail, edge := s.edge + 1, seen := s.seen }) ∧
  (∀ (s : State) (r : Rsp) (rest : List InFlight), s.inflight = { wait := 0, rsp := r } :: rest →
    endEdge s = { latency := s.latency, inflight := rest, out := some r, inputs := s.inputs, edge := s.edge, seen := s.seen ++ [r] }) ∧
  (∀ s : State, (∀ r rest, s.inflight ≠ { wait := 0, rsp := r } :: rest) → endEdge s = s)

/-- O18. The block is always ready: every step of every state gives a next state, never a fault and never a refusal (R24, R118;
a step is one edge, log 2). -/
def Obligations.EveryStepGivesANextState : Prop :=
  ∀ s : State, ∃ t, step s = .next t

/-- O19. The invariant is kept by every step of every state that has it: the queue stays in command order with at most one response
an edge and none later than `LATENCY`, and no response is ever one a conforming block does not give (R24, R26, R43, R107). The queue's
form is the model's (log 2), and so is the record of responses `seen` (log 6). -/
def Obligations.StepKeepsTheInvariant : Prop :=
  ∀ s t : State, s.Inv → step s = .next t → t.Inv

/-- O20. The invariant holds after reset, for every value of `LATENCY`; the value in `State.reset` is the model's (log 1). -/
def Obligations.ResetHasTheInvariant : Prop :=
  State.reset.Inv ∧ ∀ n : Nat, (State.resetAt n).Inv

/-- O21. The in-flight queue holds at most `LATENCY` entries between edges (R26); with `LATENCY = 0` nothing is ever in flight
(queue form: log 2). -/
def Obligations.QueueHoldsAtMostLatency : Prop :=
  ∀ s : State, s.Inv → s.inflight.length ≤ s.latency

/-- O22. The ports, at every edge, for every latency and whatever the host drives, resets included: from any state with nothing in
flight, at edge `t` they carry `Exec` of the command accepted `LATENCY` edges before if no reset came since, and `rsp_valid = 0`
otherwise, when nothing is said of the value of `rsp` (R24, R119). The model's choices it rests on: a response due at a reset edge is
dropped (DEDUCED, log 5), nothing is presented at the edges past the end of the list of inputs (log 3), a step is one edge (log 2). -/
def Obligations.PortsFollowAcceptedCommands : Prop :=
  ∀ (s : State) (t : Nat), s.inflight = [] →
    ∃ u, Sys2Proof.core.run (t + 1) s = .next u ∧ u.out = outputAt s.latency s.inputs t ∧
      u.rspValid = (outputAt s.latency s.inputs t).isSome ∧ ∀ r, outputAt s.latency s.inputs t = some r → u.rspPort = r

/-- O23. With no reset, the responses the host reads are `Exec` of the commands it presented, one each, in their order, whatever
the gaps between them, and `LATENCY` edges after the last input nothing is left in flight (R12, R37 (a), R130). The record `seen` of the
responses read is the model's own (log 6), and nothing is presented at the edges past the end of the list of inputs (log 3). -/
def Obligations.CommandsAreAnsweredInOrder : Prop :=
  ∀ s : State, s.inflight = [] → (∀ p ∈ s.inputs, p.rst = false) →
    ∃ u, Sys2Proof.core.run (s.inputs.length + s.latency) s = .next u ∧ u.inflight = [] ∧
      u.seen = s.seen ++ runCommands (s.inputs.filterMap acceptedBy)

/-- O24. No command can tell what another was: two runs with the same resets that agree on the pins at one edge show the same at the
ports `LATENCY` edges later, whatever the other commands, errors among them (R14, R36, R109, R113). That both show nothing at a reset
edge is log 5; the inputs are a list past whose end nothing is presented, log 3. -/
def Obligations.ResponseDependsOnItsOwnCommandOnly : Prop :=
  ∀ (s s' : State) (t : Nat), s.inflight = [] → s'.inflight = [] → s.latency = s'.latency →
    (∀ k, (pinsAt s.inputs k).rst = (pinsAt s'.inputs k).rst) → pinsAt s.inputs t = pinsAt s'.inputs t →
    ∃ u u', Sys2Proof.core.run (t + s.latency + 1) s = .next u ∧ Sys2Proof.core.run (t + s.latency + 1) s' = .next u' ∧
      u.out = u'.out

/-- O25. After reset nothing is in flight and `rsp_valid` is 0 (R27, R120), for every value of `LATENCY`; the value in `State.reset`
and the empty host lists are the model's choice (logs 1, 3, 6). -/
def Obligations.ResetLeavesNothingInFlight : Prop :=
  (∀ n, (State.resetAt n).latency = n ∧ (State.resetAt n).inflight = [] ∧ (State.resetAt n).out = none ∧
    (State.resetAt n).rspValid = false) ∧
  State.reset = State.resetAt State.reset.latency

/-- O26. Taking an error, of either kind and from every state: the response is the kind's status with `y = 0x000`; nothing is saved
and nothing else changes (R106, R112; queue form: log 2). -/
def Obligations.ErrorRecordsOnlyItsStatus : Prop :=
  ∀ s : State, raiseError .invalidArgument s = .next (withResponse s 0x1000) ∧
    raiseError .lookupError s = .next (withResponse s 0x2000)

/-- O27. R119, as one reset edge and what follows it: whatever was in flight and whatever `cmd_valid` is, an edge with `rst = 1`
accepts nothing and drops everything, and while no command is accepted after it no response ever comes. The model's choices it rests
on: a response due at the reset edge itself is not shown (DEDUCED, log 5), `rst` does not clear the record `seen` (log 6), nothing is
presented at the edges past the end of the list of inputs (log 3). -/
def Obligations.ResetDropsCommandsForGood : Prop :=
  ∀ (s : State) (n : Nat), (pinsNow s).rst = true → (∀ p ∈ s.inputs.tail, acceptedBy p = none) →
    ∃ u, Sys2Proof.core.run (n + 1) s = .next u ∧ u.out = none ∧ u.inflight = [] ∧ u.seen = s.seen

end Machine

section Units

open Sys2Proof Sys2Proof.Machine Sys2Proof.Spec

/-- O28. R53 `XOR`: encoding, `c` ignored, result position by position, no error, the corner cases and the example. -/
def Obligations.XorIsPositional : Prop :=
  (∀ a b c : Block, ∃ y, execWord (packCmd 0x0 a b c) = packRsp 0 y ∧ y = a ^^^ b ∧
    (∀ i, charAt y i = (charAt a i != charAt b i)) ∧ (∀ j : Fin 12, y.getLsbD j = (a.getLsbD j ^^ b.getLsbD j))) ∧
  (∀ a : Block, execWord (packCmd 0x0 a a 0) = packRsp 0 0x000 ∧ execWord (packCmd 0x0 a 0x000 0) = packRsp 0 a ∧
    execWord (packCmd 0x0 a 0xFFF 0) = packRsp 0 (~~~a)) ∧
  execWord 0x0123456000 = 0x0575

/-- O29. `xor` of two bit-strings of one length `12n` is, block by block, `XOR12` of their blocks (R55, which the spec marks as
derived). -/
def Obligations.XorOfStringsIsBlockwise : Prop :=
  ∀ (s t : BitStr) (as bs : List Block), s ≠ [] → s.length = t.length → alignedBlocks s = .ok as → alignedBlocks t = .ok bs →
    xorBits s t = .ok ((List.zipWith xor12 as bs).map bitsOfBlock).flatten

/-- O30. R57 `PERM`: encoding, `b` and `c` ignored, where every bit goes and comes from, no error, the corner cases and the example. -/
def Obligations.PermMovesEveryBit : Prop :=
  (∀ a b c : Block, ∃ y, execWord (packCmd 0x2 a b c) = packRsp 0 y ∧
    (∀ i, charAt y (pMap i) = charAt a i) ∧ (∀ t, charAt y t = charAt a (piMap t)) ∧
    charAt y 5 = charAt a 5 ∧ y.getLsbD 6 = a.getLsbD 6 ∧ ones y = ones a) ∧
  execWord 0x2000000000 = 0x0000 ∧ execWord 0x2FFF000000 = 0x0FFF ∧
  execWord 0x2800000000 = 0x0080 ∧ execWord 0x2080000000 = 0x0008 ∧ execWord 0x2043000000 = 0x0844

/-- O31. R58 `PERMI`: encoding, `b` and `c` ignored, where every bit goes and comes from, no error, the corner cases and the
example. -/
def Obligations.PermiMovesEveryBit : Prop :=
  (∀ a b c : Block, ∃ y, execWord (packCmd 0x3 a b c) = packRsp 0 y ∧
    (∀ i, charAt y (piMap i) = charAt a i) ∧ (∀ t, charAt y t = charAt a (pMap t)) ∧
    charAt y 5 = charAt a 5 ∧ ones y = ones a) ∧
  execWord 0x3000000000 = 0x0000 ∧ execWord 0x3FFF000000 = 0x0FFF ∧ execWord 0x3844000000 = 0x0043

/-- O32. The wiring tables of R59, bit by bit and one-hot, and linearity over exclusive-or (R59 is marked derived by the spec). -/
def Obligations.PboxIsTheWiringTable : Prop :=
  (∀ (a : Block) (j : Fin 12), (permBlock a).getLsbD j = a.getLsbD (wiring j).1 ∧ (permiBlock a).getLsbD j = a.getLsbD (wiring j).2) ∧
  (∀ j : Fin 12, permBlock (1#12 <<< j.val) = (oneHot j).1 ∧ permiBlock (1#12 <<< j.val) = (oneHot j).2) ∧
  (∀ a b : Block, permBlock (a ^^^ b) = permBlock a ^^^ permBlock b ∧ permiBlock (a ^^^ b) = permiBlock a ^^^ permiBlock b)

/-- O33. The order of `PERM` is 28 (R59's last sentence, marked derived). -/
def Obligations.PermHasOrderTwentyEight : Prop :=
  (∀ a : Block, permBlock^[28] a = a) ∧ ∀ n, 0 < n → n < 28 → ∃ a : Block, permBlock^[n] a ≠ a

/-- O34. SC's testable property of the P-Box (R60): forward then inverse, or inverse then forward, gives every block back. -/
def Obligations.PboxInverseLaw : Prop :=
  ∀ a : Block, permiBlock (permBlock a) = a ∧ permBlock (permiBlock a) = a

/-- O35. R66 `SUB`: encoding, `b` and `c` ignored, every group through `S`, no error, no group fixed, the corner cases and the
example. -/
def Obligations.SubReplacesEveryGroup : Prop :=
  (∀ a b c : Block, ∃ y, execWord (packCmd 0x4 a b c) = packRsp 0 y ∧ IsSub a y ∧ ∀ k, groupAt y k ≠ groupAt a k) ∧
  execWord 0x4000000000 = 0x0924 ∧ execWord 0x4FFF000000 = 0x06DB ∧ (0x924 : Block) ^^^ 0x6DB = 0xFFF ∧
  execWord 0x4844000000 = 0x0EA7 ∧
  sMap 4 = 7 ∧ sMap 1 = 2 ∧ sMap 0 = 4 ∧ [groupAt 0x844 0, groupAt 0x844 1, groupAt 0x844 2, groupAt 0x844 3] = [4, 1, 0, 4]

/-- O36. R67 `SUBI`: encoding, `b` and `c` ignored, every group through `SI`, no error, no fixed point, the corner cases and the
example. -/
def Obligations.SubiReplacesEveryGroup : Prop :=
  (∀ a b c : Block, ∃ y, execWord (packCmd 0x5 a b c) = packRsp 0 y ∧ IsSubi a y) ∧ (∀ g, siMap g ≠ g) ∧
  execWord 0x5000000000 = 0x0B6D ∧ execWord 0x5FFF000000 = 0x0924 ∧ execWord 0x5924000000 = 0x0000 ∧
  execWord 0x5EA7000000 = 0x0844

/-- O37. The inverse law of the S-Box and the order 8 of `SUB` (R68, whose cycle is marked derived). -/
def Obligations.SboxInverseLaw : Prop :=
  (∀ a y : Block, subBlock a = .ok y → subiBlock y = .ok a) ∧ (∀ a y : Block, subiBlock a = .ok y → subBlock y = .ok a) ∧
  (∀ g : Group, siMap (sMap g) = g ∧ sMap (siMap g) = g) ∧
  (∀ f : Block → Block, (∀ a, subBlock a = .ok (f a)) → (∀ a, f^[8] a = a) ∧ ∀ n, 0 < n → n < 8 → ∀ a, f^[n] a ≠ a)

/-- O38. R69: a lane that has no entry for some group of the block makes the whole lookup raise `LookupError`, whose response is status 2
with no result; with the given tables the lookup answers for every value, in both senses, and `SUB` and `SUBI` never raise. -/
def Obligations.MissingEntryRaisesLookupError : Prop :=
  (∀ (active : List (Group × Group)) (g : Group), active.lookup g = none → lookupGroup active g = .error .lookupError) ∧
  (∀ (active : List (Group × Group)) (a : Block) (k : Fin 4), active.lookup (groupAt a k) = none →
    onGroups (lookupGroup active) a = .error .lookupError) ∧
  rspOf (.error .lookupError) = packRsp 2 0x000 ∧
  (∀ g : Group, sboxUnit false g = .ok (sMap g) ∧ sboxUnit true g = .ok (siMap g)) ∧
  (∀ a : Block, (∃ y, subBlock a = .ok y) ∧ ∃ y, subiBlock a = .ok y)

/-- O39. R74 `ENC`: encoding, its stages, no error, the corner cases and the example with its stages. -/
def Obligations.EncIsTwoKeyedRounds : Prop :=
  (∀ a b c : Block, ∃ y, IsEnc a b c y ∧ execWord (packCmd 0x6 a b c) = packRsp 0 y) ∧
  (∀ a b c : Block, rspOf (do let x ← roundBlock a b; roundBlock x (xor12 b c)) = execWord (packCmd 0x6 a b c)) ∧
  (∀ a : Block, ∃ q1 s1 q2 y, IsPerm a q1 ∧ IsSub q1 s1 ∧ IsPerm s1 q2 ∧ IsSub q2 y ∧ execWord (packCmd 0x6 a 0 0) = packRsp 0 y) ∧
  execWord 0x6000000000 = 0x0972 ∧ execWord 0x6123456456 = 0x09FE ∧ execWord 0x6FFFFFFFFF = 0x0972 ∧
  execWord 0x6043000000 = 0x0B5F ∧ execWord 0x6040070067 = 0x0000 ∧
  execWord 0x6123456789 = 0x0618 ∧ IsPerm 0x575 0x375 ∧ IsSub 0x375 0x428 ∧ IsPerm 0x7F7 0xF7D ∧ IsSub 0xF7D 0x618 ∧
  (0x123 : Block) ^^^ 0x456 = 0x575 ∧ (0x456 : Block) ^^^ 0x789 = 0x3DF ∧ (0x428 : Block) ^^^ 0x3DF = 0x7F7

/-- O40. R75 `DEC`: encoding, its stages, no error, the corner cases and the example with its stages. -/
def Obligations.DecUndoesTwoKeyedRounds : Prop :=
  (∀ a b c : Block, ∃ y, IsDec a b c y ∧ execWord (packCmd 0x7 a b c) = packRsp 0 y) ∧
  (∀ a b c : Block, rspOf (do let x ← unroundBlock a (xor12 b c); unroundBlock x b) = execWord (packCmd 0x7 a b c)) ∧
  execWord 0x7000000000 = 0x013D ∧ execWord 0x7972000000 = 0x0000 ∧ execWord 0x7000070067 = 0x0040 ∧
  execWord 0x7618789456 ≠ 0x0123 ∧
  execWord 0x7618456789 = 0x0123 ∧ IsSubi 0x618 0xF7D ∧ IsPermi 0xF7D 0x7F7 ∧ IsSubi 0x428 0x375 ∧ IsPermi 0x375 0x575 ∧
  (0x456 : Block) ^^^ 0x789 = 0x3DF ∧ (0x7F7 : Block) ^^^ 0x3DF = 0x428 ∧ (0x575 : Block) ^^^ 0x456 = 0x123

/-- O41. The inverse law of the cipher on one block, from response to command and back, and `ENC` a bijection for fixed keys (R76,
marked derived). -/
def Obligations.CipherInverseLaw : Prop :=
  ∀ b c : Block,
    (∀ a, execWord (encode (.dec (rspResult (execWord (encode (.enc a b c)))) b c)) = okRsp a) ∧
    (∀ a, execWord (encode (.enc (rspResult (execWord (encode (.dec a b c)))) b c)) = okRsp a) ∧
    Function.Bijective fun a => rspResult (execWord (encode (.enc a b c)))

/-- O42. `ENC` and `DEC` are the seven-command compositions of R77 (marked derived), run as host scripts with the spec's own names
through the real command words: the last line's response is that of the single command. (No name is given twice: log 11.) -/
def Obligations.CipherIsItsComposition : Prop :=
  ∀ a b c : Block,
    (∃ rs, runScript
        [.op (some ['r', '1']) .xor [.lit a, .lit b], .op (some ['q', '1']) .perm [.name ['r', '1']],
         .op (some ['s', '1']) .sub [.name ['q', '1']], .op (some ['k', 'x']) .xor [.lit b, .lit c],
         .op (some ['r', '2']) .xor [.name ['s', '1'], .name ['k', 'x']], .op (some ['q', '2']) .perm [.name ['r', '2']],
         .op (some ['s', '2']) .sub [.name ['q', '2']]] = .ok rs ∧ rs.length = 7 ∧
      rs.getLast?.map Prod.snd = some (execWord (encode (.enc a b c)))) ∧
    (∃ rs, runScript
        [.op (some ['u', '2']) .subi [.lit a], .op (some ['p', '2']) .permi [.name ['u', '2']],
         .op (some ['k', 'x']) .xor [.lit b, .lit c], .op (some ['m', 'i', 'd']) .xor [.name ['p', '2'], .name ['k', 'x']],
         .op (some ['u', '1']) .subi [.name ['m', 'i', 'd']], .op (some ['p', '1']) .permi [.name ['u', '1']],
         .op (some ['p', 't']) .xor [.name ['p', '1'], .lit b]] = .ok rs ∧ rs.length = 7 ∧
      rs.getLast?.map Prod.snd = some (execWord (encode (.dec a b c))))

/-- O43. `ENC` depends on its operands only through `a ^ b` and `b ^ c`, and the corresponding law of `DEC` (R79, marked derived). -/
def Obligations.EncDependsOnOperandDifferences : Prop :=
  ∀ a b c d : Block,
    execWord (encode (.enc a b c)) = execWord (encode (.enc (a ^^^ d) (b ^^^ d) (c ^^^ d))) ∧
    execWord (encode (.enc a b c)) = execWord (encode (.enc (a ^^^ b) 0 (b ^^^ c))) ∧
    rspResult (execWord (encode (.dec a b c))) = rspResult (execWord (encode (.dec a 0 (b ^^^ c)))) ^^^ b

/-- O44. The tables: each is the row the spec prints (R15 to R18), the inverses undo the forward maps, and building them at start-up
succeeds with SC's literals and fails with any map that is no bijection (R19, R122). -/
def Obligations.TablesAreBijections : Prop :=
  (∀ i, pboxForward.lookup i = some (pMap i) ∧ pboxInverse.lookup i = some (piMap i)) ∧
  (∀ g, sboxForward.lookup g = some (sMap g) ∧ sboxInverse.lookup g = some (siMap g)) ∧
  (∀ i, piMap (pMap i) = i ∧ pMap (piMap i) = i) ∧ (∀ g, siMap (sMap g) = g ∧ sMap (siMap g) = g) ∧
  buildTables pboxForward sboxForward = some { p := pboxForward, pInv := pboxInverse, s := sboxForward, sInv := sboxInverse } ∧
  (∀ (p : List (Fin 12 × Fin 12)) (s : List (Group × Group)), (∃ x y z, (x, z) ∈ p ∧ (y, z) ∈ p ∧ x ≠ y) → buildTables p s = none) ∧
  (∀ (p : List (Fin 12 × Fin 12)) (s : List (Group × Group)), (∃ x y z, (x, z) ∈ s ∧ (y, z) ∈ s ∧ x ≠ y) → buildTables p s = none)

end Units

section HostProcedures

open Sys2Proof Sys2Proof.Machine Sys2Proof.Spec

/-- O45. R86 `encodeText`: when it fails and with which kind, and otherwise eight bits a character, most significant first, in input
order, with the rule's examples. -/
def Obligations.EncodeTextGivesEightBitsEach : Prop :=
  encodeText [] = .error (.raised .invalidArgument) ∧
  (∀ t : Text, t ≠ [] → (∀ c ∈ t, encodable c) →
    ∃ s, encodeText t = .ok s ∧ s.length = 8 * t.length ∧
      ∀ i (h : i < t.length) (j : Fin 8), s[8 * i + j]? = some ((codeOf t[i]).testBit (7 - j)) ∧ codeOf t[i] < 256) ∧
  (∀ t : Text, (∃ c ∈ t, ¬ encodable c) → encodeText t = .error (.raised .outOfRange)) ∧
  encodeText [0x43] = .ok [false, true, false, false, false, false, true, true] ∧
  encodeText [0x2409] = .ok [false, false, false, false, true, false, false, true] ∧
  encodeText [9] = .ok [false, false, false, false, true, false, false, true]

/-- O46. Decoding an encoded text: every character comes back as R86 and R87 have it (codes 0 to 31 as their control pictures, U+2420
as the space), and the leading U+2400 characters are stripped. (R99's last property and R100, R101, marked derived.) -/
def Obligations.DecodeTextOfEncodeText : Prop :=
  ∀ (t : Text) (s : BitStr), encodeText t = .ok s → decodeText s = .ok ((t.map backAs).dropWhile fun c => c == 0x2400)

/-- O47. R88 `alignToTriple`: an empty or invalid argument fails; otherwise the three results have one length, the smallest multiple of 12 that
is at least the longest argument's, each is its argument left-padded with zeros, and its value is kept. -/
def Obligations.AlignPadsToOneLength : Prop :=
  (∀ a b c : BitStr, a = [] ∨ b = [] ∨ c = [] → alignToTriple a b c = .error (.raised .invalidArgument)) ∧
  (∀ a b c : BitStr, a ≠ [] → b ≠ [] → c ≠ [] → ∃ (n : Nat) (a' b' c' : BitStr),
    alignToTriple a b c = .ok (a', b', c') ∧ a'.length = n ∧ b'.length = n ∧ c'.length = n ∧
    12 ∣ n ∧ max (max a.length b.length) c.length ≤ n ∧ (∀ m, 12 ∣ m → max (max a.length b.length) c.length ≤ m → n ≤ m) ∧
    a' = List.replicate (n - a.length) false ++ a ∧ b' = List.replicate (n - b.length) false ++ b ∧
    c' = List.replicate (n - c.length) false ++ c ∧
    bitsValue a' = bitsValue a ∧ bitsValue b' = bitsValue b ∧ bitsValue c' = bitsValue c) ∧
  (∀ as bs cs : List Char, (∃ ch, (ch ∈ as ∨ ch ∈ bs ∨ ch ∈ cs) ∧ ch ≠ '0' ∧ ch ≠ '1') →
    onChars3 alignToTriple as bs cs = .error (.raised .invalidArgument))

/-- O48. R90 `splitIntoBlocks`: an empty or invalid bit-string fails; otherwise there are `ceil(len / 12)` chunks, each of 12 characters but a last
one that holds the remainder, and concatenated they are the string. -/
def Obligations.SplitIntoBlocksConcatenates : Prop :=
  splitIntoBlocks [] = .error (.raised .invalidArgument) ∧
  (∀ cs : List Char, (∃ ch ∈ cs, ch ≠ '0' ∧ ch ≠ '1') → onChars splitIntoBlocks cs = .error (.raised .invalidArgument)) ∧
  (∀ s : BitStr, s ≠ [] → ∃ bs, splitIntoBlocks s = .ok bs ∧ bs.flatten = s ∧ bs.length = (s.length + 11) / 12 ∧
    (∀ (j : Nat) (g : BitStr), bs[j]? = some g → g.length = if j + 1 < bs.length ∨ s.length % 12 = 0 then 12 else s.length % 12))

/-- O49. `bitsToInt` is the unsigned big-endian number of its bits, of any length (R91). -/
def Obligations.BitsToIntIsBigEndian : Prop :=
  bitsToInt [] = .error (.raised .invalidArgument) ∧
  (∀ s : BitStr, s ≠ [] → bitsToInt s = .ok (∑ i ∈ Finset.range s.length, (s.getD i false).toNat * 2 ^ (s.length - 1 - i)))

/-- O50. The trim of R92 removes only zeros: its result has the same value, and it is shorter only by `len mod 12` leading zeros, which
leaves a multiple of 12; a string whose first `len mod 12` characters are not all zero stays as it is. It holds of the empty bit-string
too, whose trim is the empty bit-string in the model (DEDUCED, R92 against R85: log 10). -/
def Obligations.TrimRemovesOnlyLeadingZeros : Prop :=
  ∀ s : BitStr, bitsValue (trimToPreviousMultipleOf12 s) = bitsValue s ∧
    (true ∈ s.take (s.length % 12) → trimToPreviousMultipleOf12 s = s) ∧
    (true ∉ s.take (s.length % 12) →
      s = List.replicate (s.length % 12) false ++ trimToPreviousMultipleOf12 s ∧ (trimToPreviousMultipleOf12 s).length % 12 = 0)

/-- O51. A character outside '0', '1' makes every operation on bit-strings raise `InvalidArgument` (R85, SC's own property in R99); valid
characters reach the operation as the bits they are. -/
def Obligations.BadAlphabetIsInvalidArgument : Prop :=
  (∀ (α : Type) (op : BitStr → Proc α) (cs : List Char), (∃ ch ∈ cs, ch ≠ '0' ∧ ch ≠ '1') →
    onChars op cs = .error (.raised .invalidArgument)) ∧
  (∀ as bs : List Char, (∃ ch, (ch ∈ as ∨ ch ∈ bs) ∧ ch ≠ '0' ∧ ch ≠ '1') →
    onChars2 xorBits as bs = .error (.raised .invalidArgument)) ∧
  (∀ (α : Type) (op : BitStr → Proc α) (s : BitStr), onChars op (s.map fun b => if b then '1' else '0') = op s)

/-- O52. `permute` on a bit-string (R93): empty or longer than 12 fails, exactly 12 is the block's operation, and a shorter one has no
meaning (93 U2; log 8). -/
def Obligations.PermuteOnStrings : Prop :=
  ∀ (inv : Bool) (s : BitStr),
    ((s = [] ∨ 12 < s.length) → permuteBits inv s = .error (.raised .invalidArgument)) ∧
    (∀ a, blockOfBits s = some a → permuteBits inv s = .ok (bitsOfBlock (if inv then permiBlock a else permBlock a))) ∧
    (s ≠ [] → s.length < 12 → permuteBits inv s = .error (.unspecified .shortBlock))

/-- O53. `substitute` on a bit-string (R94, R70): a length that is no multiple of 3 fails, and on aligned bit-strings the result is that
of `SUB` or `SUBI` block by block (R70's sentence is marked derived). -/
def Obligations.SubstituteOnStringsIsBlockwise : Prop :=
  (∀ (inv : Bool) (s : BitStr), (s = [] ∨ s.length % 3 ≠ 0) → substituteBits inv s = .error (.raised .invalidArgument)) ∧
  (∀ (inv : Bool) (s : BitStr) (as ys : List Block), s ≠ [] → alignedBlocks s = .ok as →
    as.mapM (if inv then subiBlock else subBlock) = .ok ys → substituteBits inv s = .ok (ys.map bitsOfBlock).flatten)

/-- O54. Where three and four characters stand in the blocks (R32, marked derived). -/
def Obligations.CharactersStraddleBlocks : Prop :=
  ∀ c0 c1 c2 c3 : Nat, c0 < 256 → c1 < 256 → c2 < 256 → c3 < 256 →
    (∃ s, encodeText [c0, c1, c2] = .ok s ∧ alignedBlocks (padLeft (roundUp 12 s.length) s) =
      .ok [BitVec.ofNat 12 (c0 * 16 + c1 / 16), BitVec.ofNat 12 (c1 % 16 * 256 + c2)]) ∧
    (∃ s, encodeText [c0, c1, c2, c3] = .ok s ∧ alignedBlocks (padLeft (roundUp 12 s.length) s) =
      .ok [BitVec.ofNat 12 c0, BitVec.ofNat 12 (c1 * 16 + c2 / 16), BitVec.ofNat 12 (c2 % 16 * 256 + c3)])

/-- O55. A whole message is enciphered, and deciphered, block by block (R80, marked derived): SC's own steps on whole aligned
bit-strings, stage by stage, give what one `ENC` (or `DEC`) command per block gives. -/
def Obligations.MessageIsEncipheredBlockByBlock : Prop :=
  ∀ pt k1 k2 : BitStr, pt ≠ [] → pt.length % 12 = 0 → k1.length = pt.length → k2.length = pt.length →
    (∃ s2, encryptBits pt k1 k2 = .ok s2 ∧ s2.length = pt.length ∧ driveBlocks Instr.enc pt k1 k2 = .ok s2) ∧
    (∃ s, decryptBits pt k1 k2 = .ok s ∧ s.length = pt.length ∧ driveBlocks Instr.dec pt k1 k2 = .ok s)

/-- O56. The host may drive the block command by command (R97, marked derived): for all texts, errors included, `encrypt` and `decrypt`
by commands are SC's `encrypt` and `decrypt`. (Where `decrypt` trims is DEDUCED, log 12; the error kind for a status other than `OK` is
the model's choice, log 13.) -/
def Obligations.TextCipherByCommands : Prop :=
  ∀ t key1 key2 : Text, encryptByCommands t key1 key2 = encrypt t key1 key2 ∧ decryptByCommands t key1 key2 = decrypt t key1 key2

/-- O57. Step 1 of R95 and R96: an empty argument, each independently, is `InvalidArgument`. -/
def Obligations.EmptyArgumentsAreInvalid : Prop :=
  ∀ t key1 key2 : Text, t = [] ∨ key1 = [] ∨ key2 = [] →
    encrypt t key1 key2 = .error (.raised .invalidArgument) ∧ decrypt t key1 key2 = .error (.raised .invalidArgument)

/-- O58. SC's round trip with its true boundary: for a plaintext of characters 32 to 255 and any keys that can be encoded, if the
leftmost block of `s2` is not entirely zero, decrypting the ciphertext gives the plaintext (R103: "the round trip then holds",
marked derived). The trim is the one in step 2 of R96 alone (DEDUCED, log 12). -/
def Obligations.TextRoundTripAwayFromTheBoundary : Prop :=
  ∀ (p key1 key2 : Text) (pb b1 b2 pt k1 k2 s2 : BitStr), (∀ c ∈ p, 32 ≤ c ∧ c ≤ 255) →
    encodeText p = .ok pb → encodeText key1 = .ok b1 → encodeText key2 = .ok b2 →
    alignToTriple pb b1 b2 = .ok (pt, k1, k2) → encryptBits pt k1 k2 = .ok s2 → true ∈ s2.take 12 →
    ∃ c, encrypt p key1 key2 = .ok c ∧ decrypt c key1 key2 = .ok p

end HostProcedures

section HostScript

open Sys2Proof Sys2Proof.Machine Sys2Proof.Spec

/-- O59. R51: the three pseudo-instructions are their expansions, on every pair of blocks and under every name, and the expansion's
last response is what the rule says it stands for. (The names an expansion makes are never one another; a name given twice is log 11.) -/
def Obligations.PseudoInstructionsExpand : Prop :=
  ∀ (n : LineName) (x k : Block),
    (∃ rs, runScript [.kmix n (.lit x) (.lit k)] = .ok rs ∧ runScript [.op (some n) .xor [.lit x, .lit k]] = .ok rs ∧
      rs.getLast?.map Prod.snd = some (okRsp (xor12 x k))) ∧
    (∃ rs, runScript [.round n (.lit x) (.lit k)] = .ok rs ∧
      runScript [.op (some (n ++ ['.', 'r'])) .xor [.lit x, .lit k],
        .op (some (n ++ ['.', 'p'])) .perm [.name (n ++ ['.', 'r'])], .op (some n) .sub [.name (n ++ ['.', 'p'])]] = .ok rs ∧
      rs.getLast?.map Prod.snd = some (rspOf (roundBlock x k))) ∧
    (∃ rs, runScript [.unround n (.lit x) (.lit k)] = .ok rs ∧
      runScript [.op (some (n ++ ['.', 'u'])) .subi [.lit x],
        .op (some (n ++ ['.', 'p'])) .permi [.name (n ++ ['.', 'u'])],
        .op (some n) .xor [.name (n ++ ['.', 'p']), .lit k]] = .ok rs ∧
      rs.getLast?.map Prod.snd = some (rspOf (unroundBlock x k)))

/-- O60. A block written as a literal of either kind (R10, R50) is read back as that block (written form where R50 is silent: log 11). -/
def Obligations.LiteralsReadBack : Prop :=
  ∀ a : Block, parseLiteral (blockLiteral a) = some a ∧ parseLiteral (blockBinaryLiteral a) = some a

end HostScript
end

