-- ==== Sys2Proof/Laws/PerInstr.lean ====
section
/-! SUPPORT. Facts about every instruction as syntax, one lemma per constructor. -/

namespace Sys2Proof.Laws.OpcodeField

/-- The word of `i` carries the code of `i` in its `op` field, and that word is well formed (R41, R44). -/
def Statement (i : Instr) : Prop := cmdOp (encode i) = i.opcode ∧ Cmd.wellFormed (encode i) = true

theorem packCmd_op (op : Opcode) (a b c : Block) : cmdOp (packCmd op a b c) = op := by
  unfold cmdOp packCmd
  ext j hj
  simp only [BitVec.getElem_extractLsb', BitVec.getLsbD_append]
  have e1 : ¬ (36 + j < 12) := by omega
  have e2 : ¬ (36 + j - 12 < 12) := by omega
  have e3 : ¬ (36 + j - 12 - 12 < 12) := by omega
  have e4 : 36 + j - 12 - 12 - 12 = j := by omega
  simp [e1, e2, e3, e4, hj]

theorem of_code (op : Opcode) (a b c : Block) (h : Opcode.wellFormed op = true) :
    cmdOp (packCmd op a b c) = op ∧ Cmd.wellFormed (packCmd op a b c) = true :=
  ⟨packCmd_op op a b c, by
    have := packCmd_op op a b c
    unfold cmdOp at this
    simp [Cmd.wellFormed, this, h]⟩

theorem xor (a b : Block) : Statement (.xor a b) := of_code 0x0#4 _ _ _ (by decide)
theorem perm (a : Block) : Statement (.perm a) := of_code 0x2#4 _ _ _ (by decide)
theorem permi (a : Block) : Statement (.permi a) := of_code 0x3#4 _ _ _ (by decide)
theorem sub (a : Block) : Statement (.sub a) := of_code 0x4#4 _ _ _ (by decide)
theorem subi (a : Block) : Statement (.subi a) := of_code 0x5#4 _ _ _ (by decide)
theorem enc (a b c : Block) : Statement (.enc a b c) := of_code 0x6#4 _ _ _ (by decide)
theorem dec (a b c : Block) : Statement (.dec a b c) := of_code 0x7#4 _ _ _ (by decide)

end Sys2Proof.Laws.OpcodeField
end

