-- ==== Sys2Proof/Laws/Fields.lean ====
section
/-! SUPPORT. Reading back the fields of command words, response words and blocks. -/

namespace Sys2Proof

@[simp] theorem cmdOp_packCmd (op : Opcode) (a b c : Block) : cmdOp (packCmd op a b c) = op :=
  Laws.OpcodeField.packCmd_op op a b c

@[simp] theorem cmdC_packCmd (op : Opcode) (a b c : Block) : cmdC (packCmd op a b c) = c := by
  ext j hj
  simp only [cmdC, packCmd, BitVec.getElem_extractLsb', BitVec.getLsbD_append]
  have e : 0 + j < 12 := by omega
  simp only [e, if_true]
  simp [hj]

@[simp] theorem cmdB_packCmd (op : Opcode) (a b c : Block) : cmdB (packCmd op a b c) = b := by
  ext j hj
  simp only [cmdB, packCmd, BitVec.getElem_extractLsb', BitVec.getLsbD_append]
  have e1 : ¬ (12 + j < 12) := by omega
  have e2 : 12 + j - 12 < 12 := by omega
  have e3 : 12 + j - 12 = j := by omega
  simp [e1, e3, hj]

@[simp] theorem cmdA_packCmd (op : Opcode) (a b c : Block) : cmdA (packCmd op a b c) = a := by
  ext j hj
  simp only [cmdA, packCmd, BitVec.getElem_extractLsb', BitVec.getLsbD_append]
  have e1 : ¬ (24 + j < 12) := by omega
  have e2 : ¬ (24 + j - 12 < 12) := by omega
  have e3 : 24 + j - 12 - 12 = j := by omega
  simp [e1, e2, e3, hj]

namespace Machine

@[simp] theorem rspResult_packRsp (st : BitVec 2) (y : Block) : rspResult (packRsp st y) = y := by
  ext j hj
  simp only [rspResult, packRsp, BitVec.getElem_extractLsb', BitVec.getLsbD_append]
  have e : 0 + j < 12 := by omega
  simp only [e, if_true]
  simp [hj]

@[simp] theorem rspStatus_packRsp (st : BitVec 2) (y : Block) : rspStatus (packRsp st y) = st := by
  ext j hj
  simp only [rspStatus, packRsp, BitVec.getElem_extractLsb', BitVec.getLsbD_append]
  have e1 : ¬ (12 + j < 12) := by omega
  have e2 : 12 + j - 12 = j := by omega
  simp [e1, e2, hj]

/-- Setting one character of a block sets it and leaves every other. -/
theorem charAt_setChar (a : Block) (i j : Fin 12) (b : Bool) :
    charAt (setChar a i b) j = if j = i then b else charAt a j := by
  have hi : 12 - 1 - j.val < 12 := by omega
  have key : (12 - 1 - j.val = 11 - i.val) ↔ j = i := by
    constructor
    · intro h; apply Fin.ext; omega
    · rintro rfl; omega
  cases b <;>
    simp only [charAt, setChar, BitVec.getMsbD_eq_getLsbD, j.isLt, decide_true, Bool.true_and, if_true, if_false,
      Bool.false_eq_true, BitVec.getLsbD_or, BitVec.getLsbD_and, BitVec.getLsbD_not, BitVec.getLsbD_shiftLeft,
      BitVec.getLsbD_one, hi]
  · by_cases h : j = i
    · subst h; simp
    · have hne : ¬ (12 - 1 - j.val = 11 - i.val) := fun e => h (key.1 e)
      by_cases hlt : 12 - 1 - j.val < 11 - i.val
      · simp [h, hlt]
      · have : ¬ (12 - 1 - j.val - (11 - i.val) = 0) := by omega
        simp [h, this]
  · by_cases h : j = i
    · subst h; simp
    · have hne : ¬ (12 - 1 - j.val = 11 - i.val) := fun e => h (key.1 e)
      by_cases hlt : 12 - 1 - j.val < 11 - i.val
      · simp [h, hlt]
      · have : ¬ (12 - 1 - j.val - (11 - i.val) = 0) := by omega
        simp [h, this]

/-- A lane operation that answers for every group answers for the block, group by group. -/
theorem onGroups_ok {lane : Group → Except BlockError Group} {f : Group → Group} (h : ∀ g, lane g = .ok (f g)) (a : Block) :
    onGroups lane a = .ok (ofGroups (f (groupAt a 0)) (f (groupAt a 1)) (f (groupAt a 2)) (f (groupAt a 3))) := by
  simp [onGroups, h]; rfl

end Machine

end Sys2Proof
end

