-- ==== Sys2Proof/Laws/Boxes.lean ====
section
/-! SUPPORT. What the box operations do to the characters and groups of a block. -/

namespace Sys2Proof.Machine

/-- Two blocks with the same characters are the same block. -/
theorem block_ext {a b : Block} (h : ∀ i, charAt a i = charAt b i) : a = b := by
  apply BitVec.eq_of_getMsbD_eq
  intro i hi
  exact h ⟨i, hi⟩

@[simp] theorem charAt_zero (i : Fin 12) : charAt 0#12 i = false := by simp [charAt]

@[simp] theorem charAt_xor12 (a b : Block) (i : Fin 12) : charAt (xor12 a b) i = (charAt a i ^^ charAt b i) := by
  simp [charAt, xor12]

/-- After the pairs of a map have been applied, a target that is not among them is as before. -/
theorem charAt_foldl_of_notMem (t : List (Fin 12 × Fin 12)) (a y : Block) (j : Fin 12) (h : j ∉ t.map Prod.snd) :
    charAt (t.foldl (fun y p => setChar y p.2 (charAt a p.1)) y) j = charAt y j := by
  induction t generalizing y with
  | nil => rfl
  | cons p t ih =>
    simp only [List.map_cons, List.mem_cons, not_or] at h
    rw [List.foldl_cons, ih _ h.2, charAt_setChar, if_neg h.1]

/-- R57, R58 for any map whose targets are distinct: `output[to] = input[from]`. -/
theorem charAt_permute {t : List (Fin 12 × Fin 12)} (hd : (t.map Prod.snd).Nodup) {p : Fin 12 × Fin 12} (hp : p ∈ t) (a : Block) :
    charAt (permute t a) p.2 = charAt a p.1 := by
  unfold permute
  generalize 0#12 = y
  induction t generalizing y with
  | nil => cases hp
  | cons q t ih =>
    simp only [List.map_cons, List.nodup_cons] at hd
    rw [List.foldl_cons]
    rcases List.mem_cons.1 hp with rfl | hp'
    · rw [charAt_foldl_of_notMem _ _ _ _ hd.1, charAt_setChar, if_pos rfl]
    · exact ih hd.2 hp' _

theorem pboxForward_targets : (pboxForward.map Prod.snd).Nodup := by decide

theorem pboxInverse_targets : (pboxInverse.map Prod.snd).Nodup := by decide

@[simp] theorem groupAt_ofGroups_0 (a b c d : Group) : groupAt (ofGroups a b c d) 0 = a := by
  ext j hj
  simp only [groupAt, ofGroups, BitVec.getElem_extractLsb', BitVec.getLsbD_append]
  have e1 : ¬ (9 + j < 3) := by omega
  have e2 : ¬ (9 + j - 3 < 3) := by omega
  have e3 : ¬ (9 + j - 3 - 3 < 3) := by omega
  have e4 : 9 + j - 3 - 3 - 3 = j := by omega
  simp [e1, e2, e3, e4, hj]

@[simp] theorem groupAt_ofGroups_1 (a b c d : Group) : groupAt (ofGroups a b c d) 1 = b := by
  ext j hj
  simp only [groupAt, ofGroups, BitVec.getElem_extractLsb', BitVec.getLsbD_append]
  have e1 : ¬ (6 + j < 3) := by omega
  have e2 : ¬ (6 + j - 3 < 3) := by omega
  have e4 : 6 + j - 3 - 3 = j := by omega
  simp [e1, e2, e4, hj]

@[simp] theorem groupAt_ofGroups_2 (a b c d : Group) : groupAt (ofGroups a b c d) 2 = c := by
  ext j hj
  simp only [groupAt, ofGroups, BitVec.getElem_extractLsb', BitVec.getLsbD_append]
  have e1 : ¬ (3 + j < 3) := by omega
  have e4 : 3 + j - 3 = j := by omega
  simp [e1, e4, hj]

@[simp] theorem groupAt_ofGroups_3 (a b c d : Group) : groupAt (ofGroups a b c d) 3 = d := by
  ext j hj
  simp only [groupAt, ofGroups, BitVec.getElem_extractLsb', BitVec.getLsbD_append]
  simp [hj]

/-- A block is its four groups. -/
theorem ofGroups_groupAt (a : Block) : ofGroups (groupAt a 0) (groupAt a 1) (groupAt a 2) (groupAt a 3) = a := by
  apply BitVec.eq_of_getLsbD_eq
  intro j hj
  simp only [groupAt, ofGroups, BitVec.getLsbD_append, BitVec.getLsbD_extractLsb']
  interval_cases j <;> simp

end Sys2Proof.Machine
end

