-- ==== Sys2Proof/Laws/State.lean ====
section
/-! SUPPORT. One lemma per field per update of State. -/

namespace Sys2Proof.Machine

@[simp] theorem resetAt_latency (n : Nat) : (State.resetAt n).latency = n := rfl
@[simp] theorem resetAt_inflight (n : Nat) : (State.resetAt n).inflight = [] := rfl
@[simp] theorem resetAt_out (n : Nat) : (State.resetAt n).out = none := rfl
@[simp] theorem resetAt_inputs (n : Nat) : (State.resetAt n).inputs = [] := rfl
@[simp] theorem resetAt_edge (n : Nat) : (State.resetAt n).edge = 0 := rfl
@[simp] theorem resetAt_seen (n : Nat) : (State.resetAt n).seen = [] := rfl

@[simp] theorem enqueue_latency (r : Rsp) (s : State) : (enqueue r s).latency = s.latency := rfl
@[simp] theorem enqueue_inflight (r : Rsp) (s : State) :
    (enqueue r s).inflight = s.inflight ++ [{ wait := s.latency, rsp := r }] := rfl
@[simp] theorem enqueue_out (r : Rsp) (s : State) : (enqueue r s).out = s.out := rfl
@[simp] theorem enqueue_inputs (r : Rsp) (s : State) : (enqueue r s).inputs = s.inputs := rfl
@[simp] theorem enqueue_edge (r : Rsp) (s : State) : (enqueue r s).edge = s.edge := rfl
@[simp] theorem enqueue_seen (r : Rsp) (s : State) : (enqueue r s).seen = s.seen := rfl

@[simp] theorem passEdge_latency (s : State) : (passEdge s).latency = s.latency := rfl
@[simp] theorem passEdge_inflight (s : State) : (passEdge s).inflight = s.inflight := rfl
@[simp] theorem passEdge_out (s : State) : (passEdge s).out = s.out := rfl
@[simp] theorem passEdge_inputs (s : State) : (passEdge s).inputs = s.inputs.tail := rfl
@[simp] theorem passEdge_edge (s : State) : (passEdge s).edge = s.edge + 1 := rfl
@[simp] theorem passEdge_seen (s : State) : (passEdge s).seen = s.seen := rfl

@[simp] theorem tick_wait (e : InFlight) : e.tick.wait = e.wait - 1 := rfl
@[simp] theorem tick_rsp (e : InFlight) : e.tick.rsp = e.rsp := rfl

@[simp] theorem beginEdge_latency (s : State) : (beginEdge s).latency = s.latency := rfl
@[simp] theorem beginEdge_inflight (s : State) : (beginEdge s).inflight = s.inflight.map InFlight.tick := rfl
@[simp] theorem beginEdge_out (s : State) : (beginEdge s).out = none := rfl
@[simp] theorem beginEdge_inputs (s : State) : (beginEdge s).inputs = s.inputs.tail := rfl
@[simp] theorem beginEdge_edge (s : State) : (beginEdge s).edge = s.edge + 1 := rfl
@[simp] theorem beginEdge_seen (s : State) : (beginEdge s).seen = s.seen := rfl

@[simp] theorem resetEdge_latency (s : State) : (resetEdge s).latency = s.latency := rfl
@[simp] theorem resetEdge_inflight (s : State) : (resetEdge s).inflight = [] := rfl
@[simp] theorem resetEdge_out (s : State) : (resetEdge s).out = none := rfl
@[simp] theorem resetEdge_inputs (s : State) : (resetEdge s).inputs = s.inputs.tail := rfl
@[simp] theorem resetEdge_edge (s : State) : (resetEdge s).edge = s.edge + 1 := rfl
@[simp] theorem resetEdge_seen (s : State) : (resetEdge s).seen = s.seen := rfl

@[simp] theorem withFetchWord_latency (s : State) (n w : Nat) : (s.withFetchWord n w).latency = s.latency := rfl
@[simp] theorem withFetchWord_inflight (s : State) (n w : Nat) : (s.withFetchWord n w).inflight = s.inflight := rfl
@[simp] theorem withFetchWord_out (s : State) (n w : Nat) : (s.withFetchWord n w).out = s.out := rfl
@[simp] theorem withFetchWord_pins (s : State) (n w : Nat) :
    pinsNow (s.withFetchWord n w) = { rst := false, cmdValid := true, cmd := BitVec.ofNat 40 (w % 2 ^ n) } := rfl
@[simp] theorem withFetchWord_edge (s : State) (n w : Nat) : (s.withFetchWord n w).edge = s.edge := rfl
@[simp] theorem withFetchWord_seen (s : State) (n w : Nat) : (s.withFetchWord n w).seen = s.seen := rfl

/-- The end of an edge in the two cases there are. -/
theorem endEdge_due {s : State} {r : Rsp} {rest : List InFlight} (h : s.inflight = { wait := 0, rsp := r } :: rest) :
    endEdge s = { s with inflight := rest, out := some r, seen := s.seen ++ [r] } := by
  simp [endEdge, h]

theorem endEdge_none {s : State} (h : ∀ r rest, s.inflight ≠ { wait := 0, rsp := r } :: rest) : endEdge s = s := by
  unfold endEdge
  split
  · exact absurd ‹_› (h _ _)
  · rfl

@[simp] theorem endEdge_latency (s : State) : (endEdge s).latency = s.latency := by unfold endEdge; split <;> rfl
@[simp] theorem endEdge_inputs (s : State) : (endEdge s).inputs = s.inputs := by unfold endEdge; split <;> rfl
@[simp] theorem endEdge_edge (s : State) : (endEdge s).edge = s.edge := by unfold endEdge; split <;> rfl

end Sys2Proof.Machine
end

