-- ==== Sys2Proof/Laws/Ops.lean ====
section
/-! SUPPORT. What each shared operation, the meanings and a step can do, said once. -/

namespace Sys2Proof.Machine

theorem respond_next (y : Block) (s : State) : respond y s = .next (enqueue (okRsp y) s) := rfl

theorem raiseError_next (k : BlockError) (s : State) : raiseError k s = .next (enqueue (errRsp k) s) := rfl

/-- An operation that ends puts the response of how it ended in flight, and does nothing else. -/
theorem answer_next (r : Except BlockError Block) (s : State) : answer r s = .next (enqueue (rspOf r) s) := by
  cases r <;> rfl

/-- Every meaning answers as its operation ends at transaction level. -/
theorem exec_next (i : Instr) (s : State) : exec i s = .next (enqueue (rspOf (instrResult i)) s) := by
  cases i with
  | xor a b => exact answer_next (.ok (xor12 a b)) s
  | perm a => exact answer_next (.ok (permBlock a)) s
  | permi a => exact answer_next (.ok (permiBlock a)) s
  | sub a => exact answer_next (subBlock a) s
  | subi a => exact answer_next (subiBlock a) s
  | enc a b c => exact answer_next (encBlock a b c) s
  | dec a b c => exact answer_next (decBlock a b c) s

/-- Accepting a word, in the two cases there are. -/
theorem acceptCommand_ok {w : Cmd} {i : Instr} (h : decode w = .ok i) (s : State) :
    acceptCommand w s = .next (enqueue (rspOf (instrResult i)) s) := by
  simp [acceptCommand, h, exec_next]

theorem acceptCommand_reserved {w : Cmd} {e : DecodeError} (h : decode w = .error e) (s : State) :
    acceptCommand w s = .next (enqueue (errRsp .invalidArgument) s) := by
  simp [acceptCommand, h, execReserved, raiseError_next]

/-- Everything a step can do: a reset edge, an edge that accepts a command, or an edge that accepts none. -/
theorem step_cases (s : State) :
    ((pinsNow s).rst = true ∧ step s = .next (resetEdge s)) ∨
    ((pinsNow s).rst = false ∧ (pinsNow s).cmdValid = true ∧
      step s = .next (endEdge (enqueue (execWord (pinsNow s).cmd) (beginEdge s)))) ∨
    ((pinsNow s).rst = false ∧ (pinsNow s).cmdValid = false ∧ step s = .next (endEdge (beginEdge s))) := by
  unfold step
  cases hr : (pinsNow s).rst
  · cases hv : (pinsNow s).cmdValid
    · exact .inr (.inr ⟨rfl, rfl, by simp⟩)
    · refine .inr (.inl ⟨rfl, rfl, ?_⟩)
      cases hd : decode (pinsNow s).cmd with
      | ok i => simp [acceptCommand_ok hd, execWord, hd, afterExec]
      | error e => simp [acceptCommand_reserved hd, execWord, hd, afterExec]
  · exact .inl ⟨rfl, by simp⟩

end Sys2Proof.Machine
end

