-- ==== Sys2Proof/Laws/Text.lean ====
section
/-! SUPPORT. Lists of bits: padding, chunks and values, and procedures mapped over lists. -/

namespace Sys2Proof.Machine

/-- A procedure that answers on every element answers on the list. -/
theorem mapM_ok {α β ε : Type} {f : α → Except ε β} {g : α → β} (l : List α) (h : ∀ x ∈ l, f x = .ok (g x)) :
    l.mapM f = .ok (l.map g) := by
  induction l with
  | nil => rfl
  | cons x l ih =>
    rw [List.mapM_cons, h x (by simp), ih fun y hy => h y (by simp [hy])]
    rfl

@[simp] theorem length_bitsOf (n v : Nat) : (bitsOf n v).length = n := by simp [bitsOf]

@[simp] theorem length_bitsOfBlock (a : Block) : (bitsOfBlock a).length = 12 := by simp [bitsOfBlock]

theorem length_padLeft {n : Nat} {s : BitStr} (h : s.length ≤ n) : (padLeft n s).length = n := by
  simp [padLeft]; omega

theorem padLeft_of_length {n : Nat} {s : BitStr} (h : s.length = n) : padLeft n s = s := by simp [padLeft, h]

theorem foldl_bits (s : BitStr) (n : Nat) :
    s.foldl (fun n b => 2 * n + b.toNat) n = n * 2 ^ s.length + bitsValue s := by
  induction s generalizing n with
  | nil => simp [bitsValue]
  | cons b s ih =>
    simp only [bitsValue, List.foldl_cons, List.length_cons]
    rw [ih (2 * n + b.toNat), ih (2 * 0 + b.toNat), pow_succ]
    ring

/-- The value of a concatenation. -/
theorem bitsValue_append (s t : BitStr) : bitsValue (s ++ t) = bitsValue s * 2 ^ t.length + bitsValue t := by
  rw [bitsValue, List.foldl_append, foldl_bits]
  rfl

theorem bitsValue_cons (b : Bool) (s : BitStr) : bitsValue (b :: s) = b.toNat * 2 ^ s.length + bitsValue s := by
  have := bitsValue_append [b] s
  simpa [bitsValue] using this

theorem bitsValue_zeros (n : Nat) : bitsValue (List.replicate n false) = 0 := by
  induction n with
  | zero => rfl
  | succ n ih => simp [List.replicate_succ, bitsValue_cons, ih]

theorem bitsValue_lt (s : BitStr) : bitsValue s < 2 ^ s.length := by
  induction s with
  | nil => simp [bitsValue]
  | cons b s ih =>
    rw [bitsValue_cons, List.length_cons, pow_succ]
    cases b <;> simp <;> omega

theorem chunks_nil {n : Nat} (h : 0 < n) : chunks n [] = [] := by
  simp [chunks, Nat.div_eq_of_lt (show n - 1 < n by omega)]

/-- The first chunk of a string that begins with a whole chunk is that chunk. -/
theorem chunks_append {n : Nat} (h : 0 < n) (g s : BitStr) (hg : g.length = n) : chunks n (g ++ s) = g :: chunks n s := by
  have hc : ((g ++ s).length + n - 1) / n = (s.length + n - 1) / n + 1 := by
    rw [List.length_append, hg, show n + s.length + n - 1 = (s.length + n - 1) + n by omega, Nat.add_div_right _ h]
  unfold chunks
  rw [hc, List.range_succ_eq_map, List.map_cons, List.map_map]
  congr 1
  · simp [← hg]
  · apply List.map_congr_left
    intro j _
    simp only [Function.comp]
    rw [show n * (j + 1) = g.length + n * j by rw [hg]; ring, List.drop_append, Nat.add_sub_cancel_left,
      List.drop_eq_nil_of_le (show g.length ≤ g.length + n * j by omega), List.nil_append]

/-- A string of whole chunks is cut into exactly those. -/
theorem chunks_flatten {n : Nat} (h : 0 < n) (gs : List BitStr) (hg : ∀ g ∈ gs, g.length = n) : chunks n gs.flatten = gs := by
  induction gs with
  | nil => exact chunks_nil h
  | cons g gs ih =>
    rw [List.flatten_cons, chunks_append h g _ (hg g (by simp)), ih fun x hx => hg x (by simp [hx])]

end Sys2Proof.Machine
end

