-- ==== Sys2Proof/Tests/Slice0.lean ====
section
/-! SUPPORT. The model's own tests. Every expected value is printed in the spec (95_test_vectors.md, or the example or corner case of the
rule a comment names), and every witness meets all hypotheses of the statement it is named after. -/

namespace Sys2Proof.Tests

open Sys2Proof Sys2Proof.Machine Sys2Proof.Spec

/-! ### WellFormed: one ill-formed term for each check -/

theorem test_wf_refuses_op_1 : Cmd.wellFormed 0x1123456000#40 = false := by decide
theorem test_wf_refuses_op_bit_3 : Cmd.wellFormed 0x8000000000#40 = false := by decide
theorem test_wf_accepts_dec : Cmd.wellFormed 0x7618456789#40 = true := by decide
theorem test_wf_refuses_status_3 : Rsp.wellFormed 0x3000#14 = false := by decide
theorem test_wf_refuses_error_with_result : Rsp.wellFormed 0x1001#14 = false := by decide
theorem test_wf_accepts_ok : Rsp.wellFormed 0x0618#14 = true := by decide

/-! ### Decode: words written out from R41 and R44, field by field -/

theorem test_decode_xor :
    decode 0b0000_000100100011_010001010110_000000000000#40 = .ok (.xor 0b000100100011 0b010001010110) := by decide
theorem test_decode_perm : decode 0b0010_000001000011_000000000000_000000000000#40 = .ok (.perm 0b000001000011) := by decide
theorem test_decode_permi : decode 0b0011_100001000100_000000000000_000000000000#40 = .ok (.permi 0b100001000100) := by decide
theorem test_decode_sub : decode 0b0100_100001000100_000000000000_000000000000#40 = .ok (.sub 0b100001000100) := by decide
theorem test_decode_subi : decode 0b0101_111010100111_000000000000_000000000000#40 = .ok (.subi 0b111010100111) := by decide
theorem test_decode_enc :
    decode 0b0110_000100100011_010001010110_011110001001#40 = .ok (.enc 0b000100100011 0b010001010110 0b011110001001) := by
  decide
theorem test_decode_dec :
    decode 0b0111_011000011000_010001010110_011110001001#40 = .ok (.dec 0b011000011000 0b010001010110 0b011110001001) := by
  decide
theorem test_decode_reserved : decode 0xE123456789#40 = .error (.reservedOp 0xE) := by decide
theorem test_decode_table_word : decodeTableWord 40 0x3844000000 = some (.permi 0x844) := by decide
theorem test_encode_dec : encode (.dec 0x618 0x456 0x789) = 0x7618456789#40 := by decide

/-! ### The seven operations, at most two tests each (95_test_vectors.md sections 2.1 to 2.5) -/

theorem test_xor_ignores_c : execWord 0x0123456FFF#40 = 0x0575#14 := by decide
theorem test_xor_end_bits : execWord 0x0800001000#40 = 0x0801#14 := by decide
theorem test_perm_direction : execWord 0x2800000000#40 = 0x0080#14 := by decide
theorem test_perm_ignores_b_c : execWord 0x2043FFFFFF#40 = 0x0844#14 := by decide
theorem test_permi_direction : execWord 0x3800000000#40 = 0x0002#14 := by decide
theorem test_permi_example : execWord 0x3844000000#40 = 0x0043#14 := by decide
theorem test_sub_first_group_is_leftmost : execWord 0x4E00000000#40 = 0x0724#14 := by decide
theorem test_sub_ignores_b_c : execWord 0x4844ABCDEF#40 = 0x0EA7#14 := by decide
theorem test_subi_low_entries : execWord 0x5053000000#40 = 0x0ACF#14 := by decide
theorem test_subi_high_entries : execWord 0x5977000000#40 = 0x0194#14 := by decide
theorem test_enc_example : execWord 0x6123456789#40 = 0x0618#14 := by decide
theorem test_enc_zero_result : execWord 0x6040070067#40 = 0x0000#14 := by decide
theorem test_dec_example : execWord 0x7618456789#40 = 0x0123#14 := by decide
theorem test_dec_keys_swapped : execWord 0x7618789456#40 = 0x02FC#14 := by decide
theorem test_reserved_hole : execWord 0x1123456000#40 = 0x1000#14 := by decide
theorem test_reserved_all_ones : execWord 0xFFFFFFFFFF#40 = 0x1000#14 := by decide

/-! ### Single edges (95_test_vectors.md program 5, `LATENCY = 2`) -/

/-- Edge 4 of program 5: B is due, C is on the pins. -/
def edge4 : State :=
  { State.resetAt 2 with inflight := [{ wait := 1, rsp := 0x0844 }], inputs := [{ rst := false, cmdValid := true, cmd := 0x6123456789 }] }

/-- Edge 5 of program 5: reset while C is in flight. -/
def edge5 : State :=
  { State.resetAt 2 with inflight := [{ wait := 2, rsp := 0x0618 }], inputs := [{ rst := true, cmdValid := false, cmd := 0 }] }

/-- What a step leaves, for tests that look at a field or two. -/
def afterStep {α : Type} (f : State → α) (s : State) : Option α :=
  match step s with
  | .next t => some (f t)
  | .fault _ => none
  | .refused _ => none

theorem test_edge4_answers_b_and_takes_c :
    afterStep (fun t => (t.out, t.inflight)) edge4 = some (some 0x0844, [{ wait := 2, rsp := 0x0618 }]) := by decide
theorem test_edge5_drops_c : afterStep (fun t => (t.out, t.inflight)) edge5 = some (none, []) := by decide
theorem test_reset_beats_cmd_valid :
    afterStep (fun t => (t.out, t.inflight))
      { State.resetAt 0 with inputs := [{ rst := true, cmdValid := true, cmd := 0x6000000000 }] } = some (none, []) := by decide
theorem test_first_word_after_reset : afterStep State.out (State.reset.withFetchWord 40 0x2043000000) = some (some 0x0844) := by
  decide
theorem test_reserved_word_after_reset : afterStep State.out (State.reset.withFetchWord 40 0x1123456000) = some (some 0x1000) := by
  decide
theorem test_nothing_placed_is_idle : afterStep State.out State.reset = some none := by decide

/-! ### Host procedures (95_test_vectors.md sections 1.2, 1.3, 2.6) -/

theorem test_valueOf_picture : valueOf 0x2420 = .ok 32 := by decide
theorem test_valueOf_outside : valueOf 0x2421 = .error (.raised .lookupError) := by decide
theorem test_encodeText_out_of_range : encodeText [0x100] = .error (.raised .outOfRange) := by decide
theorem test_decodeText_space : onChars decodeText ['0', '0', '1', '0', '0', '0', '0', '0'] = .ok [0x20] := by decide
theorem test_decodeText_pads : onChars decodeText ['1', '0', '1'] = .ok [0x2405] := by decide
theorem test_decodeText_alphabet : onChars decodeText ['0', '1', '2'] = .error (.raised .invalidArgument) := by decide
theorem test_align_lengths :
    (alignToTriple (bitsOf 32 1) (bitsOf 16 1) (bitsOf 24 1)).toOption.map (fun r => (r.1.length, r.2.1.length, r.2.2.length))
      = some (36, 36, 36) := by decide
theorem test_trim_all_zero : trimToPreviousMultipleOf12 (bitsOf 8 0) = [] := by decide
theorem test_trim_unchanged : (trimToPreviousMultipleOf12 (bitsOf 16 0x5727)).length = 16 := by decide
theorem test_permute_long : permuteBits false (bitsOf 13 0x86) = .error (.raised .invalidArgument) := by decide
theorem test_substitute_length : substituteBits false (bitsOf 4 5) = .error (.raised .invalidArgument) := by decide
theorem test_encrypt_cia0 :
    encrypt [0x43, 0x69, 0x61, 0x30] [0x33, 0x4C] [0x4B, 0x72, 0x54] = .ok [0x240B, 0x5F, 0xBC, 0x3B, 0xF1] := by decide
theorem test_decrypt_cia0 :
    decrypt [0x240B, 0x5F, 0xBC, 0x3B, 0xF1] [0x33, 0x4C] [0x4B, 0x72, 0x54] = .ok [0x43, 0x69, 0x61, 0x30] := by decide
theorem test_encrypt_empty_ciphertext : encrypt [0x40] [0x70] [0x67] = .ok [] := by decide
theorem test_decrypt_loses_first_block : decrypt [0x2401, 0xF2] [0x6B] [0x7A] = .ok [0x78] := by decide

/-! ### Host script (30_encoding.md R50, R51; 95_test_vectors.md programs 1 and 4) -/

theorem test_parse_kmix :
    parseLine ['K', 'M', 'I', 'X', ' ', 'n', ' ', '=', ' ', 'k', '1', ',', ' ', '0', 'x', '7', '8', '9']
      = some (.kmix ['n'] (.name ['k', '1']) (.lit 0x789)) := by decide
theorem test_script_round_then_enc :
    (runScript [.round ['s'] (.lit 0x123) (.lit 0x456), .kmix ['k'] (.lit 0x456) (.lit 0x789), .round ['t'] (.name ['s']) (.name ['k'])]).toOption.map
      (fun rs => rs.map Prod.snd) = some [0x0575, 0x0375, 0x0428, 0x03DF, 0x07F7, 0x0F7D, 0x0618] := by decide
theorem test_script_errors_leave_no_trace :
    (runScript [.op (some ['x']) .xor [.lit 0xAAA, .lit 0x555], .raw 0x1123456000, .op none .sub [.name ['x']]]).toOption.map
      (fun rs => rs.map Prod.snd) = some [0x0FFF, 0x1000, 0x06DB] := by decide
theorem test_script_unknown_name : runScript [.op none .sub [.name ['x']]] = .error (.unknownName ['x']) := by decide

/-! ### Witnesses: the hypotheses of each statement can be met, each clause at a boundary of its range -/

theorem witness_DecodeFollowsTheOpcodeMap :
    ((0x7000000000, .dec 0xFFF 0xFFF 0xFFF) ∈ rows (cmdA 0x7FFFFFFFFF) (cmdB 0x7FFFFFFFFF) (cmdC 0x7FFFFFFFFF) ∧
      (0x7FFFFFFFFF : Cmd) &&& 0xF000000000 = 0x7000000000) ∧
    decode 0x0000000000 = .ok (.xor 0 0) ∧ (cmdOp 0x8000000000).getLsbD 3 = true ∧ cmdOp 0x1FFFFFFFFF = 0x1 ∧
    ((cmdOp 0x7FFFFFFFFF).getLsbD 3 = false ∧ cmdOp 0x7FFFFFFFFF ≠ 0x1) := by decide
theorem witness_EncodeOfDecodeClearsUnusedFields : decode 0x2FFFFFFFFF = .ok (.perm 0xFFF) := by decide
theorem witness_ReservedCodesAnswerInvalidArgument :
    (0xF : Opcode) ∈ ([0x1, 0x8, 0x9, 0xA, 0xB, 0xC, 0xD, 0xE, 0xF] : List Opcode) := by decide
theorem witness_OperationsChangeOnlyTheQueue :
    exec (.xor 0xFFF 0x001) edge4 = .next (withResponse edge4 0x0FFE) := by rfl
theorem witness_StepRunsTheDecodedCommand :
    (pinsNow edge4).rst = false ∧ (pinsNow edge4).cmdValid = true ∧ decode (pinsNow edge4).cmd = .ok (.enc 0x123 0x456 0x789) := by
  decide
theorem witness_StepRunsTheDecodedCommand_fetch : decode 0x7FFFFFFFFF = .ok (.dec 0xFFF 0xFFF 0xFFF) := by decide
theorem witness_EdgesAroundACommand :
    (pinsNow edge5).rst = true ∧ ((pinsNow (State.resetAt 0)).rst = false ∧ (pinsNow (State.resetAt 0)).cmdValid = false) ∧
    (beginEdge edge4).inflight = { wait := 0, rsp := 0x0844 } :: [] := by decide
theorem witness_EdgesAroundACommand_nothing_due : ∀ r rest, edge4.inflight ≠ { wait := 0, rsp := r } :: rest := by
  intro r rest h
  simp [edge4] at h
theorem witness_StepKeepsTheInvariant : edge4.Inv ∧ (afterStep State.out edge4).isSome = true := by decide
theorem witness_QueueHoldsAtMostLatency :
    State.Inv { State.resetAt 2 with inflight := [{ wait := 1, rsp := 0x0575 }, { wait := 2, rsp := 0x1000 }] } := by decide
theorem witness_PortsFollowAcceptedCommands :
    let s : State := { State.resetAt 2 with inputs := [{ rst := false, cmdValid := true, cmd := 0x6123456789 }] }
    s.inflight = [] ∧ outputAt s.latency s.inputs 2 = some 0x0618 ∧ outputAt s.latency s.inputs 1 = none := by decide
theorem witness_CommandsAreAnsweredInOrder :
    let s : State := { State.resetAt 2 with inputs := [{ rst := false, cmdValid := true, cmd := 0x6123456789 }, EdgeInput.idle] }
    s.inflight = [] ∧ ∀ p ∈ s.inputs, p.rst = false := by decide
theorem witness_ResponseDependsOnItsOwnCommandOnly :
    let s : State := { State.resetAt 1 with inputs := [{ rst := false, cmdValid := true, cmd := 0x1000000000 }, { rst := false, cmdValid := true, cmd := 0x6123456789 }] }
    let s' : State := { State.resetAt 1 with inputs := [EdgeInput.idle, { rst := false, cmdValid := true, cmd := 0x6123456789 }] }
    s.inflight = [] ∧ s'.inflight = [] ∧ s.latency = s'.latency ∧
      (∀ k, (pinsAt s.inputs k).rst = (pinsAt s'.inputs k).rst) ∧ pinsAt s.inputs 1 = pinsAt s'.inputs 1 := by
  refine ⟨rfl, rfl, rfl, fun k => ?_, rfl⟩
  match k with
  | 0 => rfl
  | 1 => rfl
  | _ + 2 => rfl
theorem witness_ResetDropsCommandsForGood :
    (pinsNow edge5).rst = true ∧ ∀ p ∈ edge5.inputs.tail, acceptedBy p = none := by decide
theorem witness_XorOfStringsIsBlockwise :
    bitsOfBlock 0xFFF ≠ [] ∧ (bitsOfBlock 0xFFF).length = (bitsOfBlock 0x123).length ∧
    alignedBlocks (bitsOfBlock 0xFFF) = .ok [0xFFF] ∧ alignedBlocks (bitsOfBlock 0x123) = .ok [0x123] := by decide
theorem witness_SboxInverseLaw : subBlock 0xFFF = .ok 0x6DB ∧ subiBlock 0xFFF = .ok 0x924 := by decide
/-- The lookup as a total function, for the clause of `SboxInverseLaw` that takes one. -/
def subTotal (a : Block) : Block :=
  ofGroups (sMap (groupAt a 0)) (sMap (groupAt a 1)) (sMap (groupAt a 2)) (sMap (groupAt a 3))
theorem witness_SboxInverseLaw_total : ∀ a, subBlock a = .ok (subTotal a) := by
  have lane : ∀ g, sboxUnit false g = .ok (sMap g) := by decide
  intro a
  simp [subBlock, onGroups, lane, subTotal]
  rfl
theorem witness_SboxInverseLaw_count : 0 < 7 ∧ 7 < 8 := by decide
theorem witness_PermHasOrderTwentyEight : 0 < 27 ∧ 27 < 28 := by decide
theorem witness_MissingEntryRaisesLookupError :
    ([(0, 4)] : List (Group × Group)).lookup 7 = none ∧ ([(0, 4)] : List (Group × Group)).lookup (groupAt 0x007 3) = none := by decide
theorem witness_TablesAreBijections :
    (∃ x y z : Fin 12, (x, z) ∈ [(0, 4), (11, 4)] ∧ (y, z) ∈ [((0 : Fin 12), (4 : Fin 12)), (11, 4)] ∧ x ≠ y) ∧
    (∃ x y z : Group, (x, z) ∈ [(0, 4), (7, 4)] ∧ (y, z) ∈ [((0 : Group), (4 : Group)), (7, 4)] ∧ x ≠ y) :=
  ⟨⟨0, 11, 4, by decide⟩, ⟨0, 7, 4, by decide⟩⟩
theorem witness_EncodeTextGivesEightBitsEach :
    ([255, 0x2400, 0x2420] : Text) ≠ [] ∧ (∀ c ∈ ([255, 0x2400, 0x2420] : Text), encodable c) ∧
    (∃ c ∈ ([0x41, 256] : Text), ¬ encodable c) ∧ (∃ c ∈ ([0x2421] : Text), ¬ encodable c) :=
  ⟨by decide, by simp [encodable], ⟨256, by decide, by simp [encodable]⟩, ⟨0x2421, by decide, by simp [encodable]⟩⟩
theorem witness_DecodeTextOfEncodeText :
    encodeText [0, 0x1F] = .ok [false, false, false, false, false, false, false, false, false, false, false, true, true, true, true, true] := by
  decide
theorem witness_AlignPadsToOneLength :
    ([] : BitStr) = [] ∧ [true] ≠ ([] : BitStr) ∧ bitsOf 12 1 ≠ [] ∧ bitsOf 13 1 ≠ [] := by decide
theorem witness_AlignPadsToOneLength_multiple : 12 ∣ 24 ∧ max (max [true].length (bitsOf 12 1).length) (bitsOf 13 1).length ≤ 24 := by
  decide
theorem witness_AlignPadsToOneLength_alphabet :
    ∃ ch, (ch ∈ ['1'] ∨ ch ∈ ['0'] ∨ ch ∈ ['0', '/']) ∧ ch ≠ '0' ∧ ch ≠ '1' := ⟨'/', by decide⟩
theorem witness_SplitIntoBlocksConcatenates_alphabet : ∃ ch ∈ ['2'], ch ≠ '0' ∧ ch ≠ '1' := ⟨'2', by decide⟩
theorem witness_SplitIntoBlocksConcatenates :
    bitsOf 16 0x4869 ≠ [] ∧ (chunks 12 (bitsOf 16 0x4869))[1]? = some [true, false, false, true] := by decide
theorem witness_BitsToIntIsBigEndian : [true] ≠ ([] : BitStr) := by decide
theorem witness_TrimRemovesOnlyLeadingZeros :
    true ∈ (bitsOf 16 0x5727).take ((bitsOf 16 0x5727).length % 12) ∧ true ∉ (bitsOf 8 0).take ((bitsOf 8 0).length % 12) := by decide
theorem witness_BadAlphabetIsInvalidArgument : ∃ ch ∈ ['0', '1', '2'], ch ≠ '0' ∧ ch ≠ '1' := ⟨'2', by decide⟩
theorem witness_BadAlphabetIsInvalidArgument_xor : ∃ ch, (ch ∈ ['1'] ∨ ch ∈ [':']) ∧ ch ≠ '0' ∧ ch ≠ '1' := ⟨':', by decide⟩
theorem witness_PermuteOnStrings :
    12 < (bitsOf 13 0).length ∧ blockOfBits (bitsOf 12 0xFFF) = some 0xFFF ∧ (bitsOf 11 0 ≠ [] ∧ (bitsOf 11 0).length < 12) := by decide
theorem witness_SubstituteOnStringsIsBlockwise :
    (bitsOf 4 5).length % 3 ≠ 0 ∧ bitsOfBlock 0x844 ≠ [] ∧ alignedBlocks (bitsOfBlock 0x844) = .ok [0x844] ∧
    [(0x844 : Block)].mapM (if false then subiBlock else subBlock) = .ok [0xEA7] := by decide
theorem witness_CharactersStraddleBlocks : 0 < 256 ∧ 255 < 256 := by decide
theorem witness_MessageIsEncipheredBlockByBlock :
    bitsOf 24 0x004869 ≠ [] ∧ (bitsOf 24 0x004869).length % 12 = 0 ∧ (bitsOf 24 0x6B).length = (bitsOf 24 0x004869).length ∧
    (bitsOf 24 0x51).length = (bitsOf 24 0x004869).length := by decide
theorem witness_EmptyArgumentsAreInvalid : ([] : Text) = [] ∨ ([0x6B] : Text) = [] ∨ ([0x7A] : Text) = [] := by decide
theorem witness_TextRoundTripAwayFromTheBoundary :
    (∀ c ∈ ([0x41] : Text), 32 ≤ c ∧ c ≤ 255) ∧ encodeText [0x41] = .ok (bitsOf 8 0x41) ∧ encodeText [0x42] = .ok (bitsOf 8 0x42) ∧
    encodeText [0x43] = .ok (bitsOf 8 0x43) ∧
    alignToTriple (bitsOf 8 0x41) (bitsOf 8 0x42) (bitsOf 8 0x43) = .ok (bitsOf 12 0x41, bitsOf 12 0x42, bitsOf 12 0x43) ∧
    encryptBits (bitsOf 12 0x41) (bitsOf 12 0x42) (bitsOf 12 0x43) = .ok (bitsOf 12 0xB6A) ∧ true ∈ (bitsOf 12 0xB6A).take 12 := by decide

end Sys2Proof.Tests
end

section
/-! PROOFS. The fields of command and response words as numbers, slices, characters and hexadecimal digits (R41, R43). -/

namespace Sys2Proof

/-- Of two bit vectors side by side, the left one counts in units of the right one's size. -/
theorem toNat_append_eq_mul_add {m n : Nat} (x : BitVec m) (y : BitVec n) : (x ++ y).toNat = x.toNat * 2 ^ n + y.toNat := by
  rw [BitVec.toNat_append, ← Nat.shiftLeft_add_eq_or_of_lt y.isLt, Nat.shiftLeft_eq]

/-- R41: a command word as a number. -/
theorem toNat_packCmd (op : Opcode) (a b c : Block) :
    (packCmd op a b c).toNat = op.toNat * 2 ^ 36 + a.toNat * 2 ^ 24 + b.toNat * 2 ^ 12 + c.toNat := by
  simp only [packCmd, toNat_append_eq_mul_add]
  ring

/-- R41: a command word is the packing of its fields. -/
theorem packCmd_fields (w : Cmd) : packCmd (cmdOp w) (cmdA w) (cmdB w) (cmdC w) = w := by
  unfold packCmd cmdOp cmdA cmdB cmdC
  rw [BitVec.extractLsb'_append_extractLsb'_eq_extractLsb' (by rfl),
    BitVec.extractLsb'_append_extractLsb'_eq_extractLsb' (by rfl),
    BitVec.extractLsb'_append_extractLsb'_eq_extractLsb' (by rfl), BitVec.extractLsb'_eq_self]

theorem toNat_cmdOp (w : Cmd) : (cmdOp w).toNat = w.toNat / 16 ^ 9 % 16 ^ 1 := by
  simp [cmdOp, Nat.shiftRight_eq_div_pow]

theorem toNat_cmdA (w : Cmd) : (cmdA w).toNat = w.toNat / 16 ^ 6 % 16 ^ 3 := by
  simp [cmdA, Nat.shiftRight_eq_div_pow]

theorem toNat_cmdB (w : Cmd) : (cmdB w).toNat = w.toNat / 16 ^ 3 % 16 ^ 3 := by
  simp [cmdB, Nat.shiftRight_eq_div_pow]

theorem toNat_cmdC (w : Cmd) : (cmdC w).toNat = w.toNat % 16 ^ 3 := by
  simp [cmdC]

namespace Machine

/-- R9: the characters of a twelve-bit slice are the bits of the word downwards from the slice's highest one. -/
theorem charAt_extractLsb' {n : Nat} (w : BitVec n) (start : Nat) (i : Fin 12) :
    charAt (w.extractLsb' start 12) i = w.getLsbD (start + (11 - i)) := by
  have hi : 12 - 1 - i.val < 12 := by omega
  simp [charAt, BitVec.getMsbD_eq_getLsbD, hi]

theorem charAt_cmdA (w : Cmd) (i : Fin 12) : charAt (cmdA w) i = w.getLsbD (35 - i) := by
  rw [cmdA, charAt_extractLsb', ← Nat.add_sub_assoc (by omega)]

theorem charAt_cmdB (w : Cmd) (i : Fin 12) : charAt (cmdB w) i = w.getLsbD (23 - i) := by
  rw [cmdB, charAt_extractLsb', ← Nat.add_sub_assoc (by omega)]

theorem charAt_cmdC (w : Cmd) (i : Fin 12) : charAt (cmdC w) i = w.getLsbD (11 - i) := by
  rw [cmdC, charAt_extractLsb', Nat.zero_add]

/-- The low `n` of the digits of a number stand after the digits of what is left of it. -/
theorem hexDigits_add (m n v : Nat) : hexDigits (m + n) v = hexDigits m (v / 16 ^ n) ++ hexDigits n v := by
  simp only [hexDigits, List.range_add, List.map_append, List.map_map]
  congr 1
  · refine List.map_congr_left fun i hi => ?_
    have hexp : m + n - 1 - i = n + (m - 1 - i) := by have := List.mem_range.1 hi; omega
    rw [hexp, Nat.pow_add, Nat.div_div_eq_div_mul]
  · refine List.map_congr_left fun i _ => ?_
    have hexp : m + n - 1 - (m + i) = n - 1 - i := by omega
    rw [Function.comp_apply, hexp]

/-- `n` digits show a number only up to `16 ^ n`. -/
theorem hexDigits_mod (n v : Nat) : hexDigits n (v % 16 ^ n) = hexDigits n v := by
  refine List.map_congr_left fun i hi => ?_
  have hexp : n = (n - 1 - i) + 1 + i := by have := List.mem_range.1 hi; omega
  have hdvd : 16 ∣ 16 ^ (1 + i) := dvd_pow_self 16 (by omega)
  have hpow : 16 ^ n = 16 ^ (n - 1 - i) * 16 ^ (1 + i) := by rw [← Nat.pow_add, ← Nat.add_assoc, ← hexp]
  rw [hpow, Nat.mod_mul_right_div_self, Nat.mod_mod_of_dvd _ hdvd]

/-- R41: the ten digits of a command word are those of its fields, `O AAA BBB CCC`. -/
theorem cmdHex_fields (w : Cmd) :
    cmdHex w = hexDigits 1 (cmdOp w).toNat ++ hexDigits 3 (cmdA w).toNat ++ hexDigits 3 (cmdB w).toNat ++
      hexDigits 3 (cmdC w).toNat := by
  rw [toNat_cmdOp, toNat_cmdA, toNat_cmdB, toNat_cmdC]
  simp only [hexDigits_mod]
  rw [cmdHex, hexDigits_add 7 3, hexDigits_add 4 3, hexDigits_add 1 3]
  simp only [Nat.div_div_eq_div_mul, ← Nat.pow_add]

/-- R43: a response word as a number. -/
theorem toNat_packRsp (st : BitVec 2) (y : Block) : (packRsp st y).toNat = st.toNat * 2 ^ 12 + y.toNat :=
  toNat_append_eq_mul_add st y

/-- R43: a response word is the packing of its fields. -/
theorem packRsp_fields (r : Rsp) : packRsp (rspStatus r) (rspResult r) = r := by
  unfold packRsp rspStatus rspResult
  rw [BitVec.extractLsb'_append_extractLsb'_eq_extractLsb' (by rfl), BitVec.extractLsb'_eq_self]

theorem charAt_rspResult (r : Rsp) (i : Fin 12) : charAt (rspResult r) i = r.getLsbD (11 - i) := by
  rw [rspResult, charAt_extractLsb', Nat.zero_add]

/-- Settles O2: each clause is a fact about the packing or about one field. -/
theorem commandWordFields : Obligations.CommandWordFields := by
  refine ⟨fun op a b c => ?packed, fun w => ?fields⟩
  case packed =>
    exact ⟨toNat_packCmd op a b c, cmdOp_packCmd op a b c, cmdA_packCmd op a b c, cmdB_packCmd op a b c, cmdC_packCmd op a b c⟩
  case fields =>
    exact ⟨packCmd_fields w, rfl, rfl, rfl, rfl, fun i => ⟨charAt_cmdA w i, charAt_cmdB w i, charAt_cmdC w i⟩, cmdHex_fields w⟩

end Machine

end Sys2Proof
end

section
/-! PROOFS. How a command word decodes, what its response can be, and what the block does with reserved codes (R45, R46, R49). -/

namespace Sys2Proof

@[simp] theorem decode_packCmd_xor (a b c : Block) : decode (packCmd 0x0#4 a b c) = .ok (.xor a b) := by simp [decode]
@[simp] theorem decode_packCmd_perm (a b c : Block) : decode (packCmd 0x2#4 a b c) = .ok (.perm a) := by simp [decode]
@[simp] theorem decode_packCmd_permi (a b c : Block) : decode (packCmd 0x3#4 a b c) = .ok (.permi a) := by simp [decode]
@[simp] theorem decode_packCmd_sub (a b c : Block) : decode (packCmd 0x4#4 a b c) = .ok (.sub a) := by simp [decode]
@[simp] theorem decode_packCmd_subi (a b c : Block) : decode (packCmd 0x5#4 a b c) = .ok (.subi a) := by simp [decode]
@[simp] theorem decode_packCmd_enc (a b c : Block) : decode (packCmd 0x6#4 a b c) = .ok (.enc a b c) := by simp [decode]
@[simp] theorem decode_packCmd_dec (a b c : Block) : decode (packCmd 0x7#4 a b c) = .ok (.dec a b c) := by simp [decode]

/-- R46: a word whose code is reserved is no operation, whatever its operands. -/
theorem decode_reserved {w : Cmd} (h : Opcode.wellFormed (cmdOp w) = false) : decode w = .error (.reservedOp (cmdOp w)) := by
  have hcodes : ∀ op : Opcode, op.wellFormed = false → op.toNat = 1 ∨ 8 ≤ op.toNat := by decide
  have hop := hcodes _ h
  unfold decode
  split
  case h_8 => rfl
  all_goals omega

namespace Machine

/-- R17, R18, R69: the given tables have an entry for every group. -/
theorem sboxUnit_forward (g : Group) : sboxUnit false g = .ok (Spec.sMap g) := by decide +revert
theorem sboxUnit_inverse (g : Group) : sboxUnit true g = .ok (Spec.siMap g) := by decide +revert

/-- R66: the forward S-Box answers for every block, group by group. -/
theorem subBlock_eq (a : Block) :
    subBlock a = .ok (ofGroups (Spec.sMap (groupAt a 0)) (Spec.sMap (groupAt a 1)) (Spec.sMap (groupAt a 2))
      (Spec.sMap (groupAt a 3))) :=
  onGroups_ok sboxUnit_forward a

/-- R67: the inverse S-Box answers for every block, group by group. -/
theorem subiBlock_eq (a : Block) :
    subiBlock a = .ok (ofGroups (Spec.siMap (groupAt a 0)) (Spec.siMap (groupAt a 1)) (Spec.siMap (groupAt a 2))
      (Spec.siMap (groupAt a 3))) :=
  onGroups_ok sboxUnit_inverse a

/-- R49: each of the seven operations ends with a result. -/
theorem instrResult_ok (i : Instr) : ∃ y, instrResult i = .ok y := by
  cases i with
  | xor a b => exact ⟨_, rfl⟩
  | perm a => exact ⟨_, rfl⟩
  | permi a => exact ⟨_, rfl⟩
  | sub a => exact ⟨_, subBlock_eq a⟩
  | subi a => exact ⟨_, subiBlock_eq a⟩
  | enc a b c => exact ⟨_, by simp only [instrResult, encBlock, roundBlock, subBlock_eq]; rfl⟩
  | dec a b c => exact ⟨_, by simp only [instrResult, decBlock, unroundBlock, subiBlock_eq]; rfl⟩

/-- R49: a word that decodes is answered with its operation's result and status `OK`. -/
theorem execWord_ok {w : Cmd} {i : Instr} (h : decode w = .ok i) : ∃ y, execWord w = packRsp 0 y := by
  obtain ⟨y, hy⟩ := instrResult_ok i
  exact ⟨y, by simp [execWord, h, hy, rspOf, okRsp]⟩

/-- R46: a word that does not decode is answered with `INVALID_ARGUMENT` and a result field of zero. -/
theorem execWord_error {w : Cmd} {e : DecodeError} (h : decode w = .error e) : execWord w = packRsp 1 0x000 := by
  simp [execWord, h, errRsp, statusCode]

/-- R49: the response to a word, in the two cases there are. -/
theorem execWord_cases (w : Cmd) : (∃ y, execWord w = packRsp 0 y) ∨ execWord w = packRsp 1 0x000 := by
  cases h : decode w with
  | ok i => exact .inl (execWord_ok h)
  | error e => exact .inr (execWord_error h)

theorem rspStatus_execWord_ok {w : Cmd} {i : Instr} (h : decode w = .ok i) : rspStatus (execWord w) = 0 := by
  obtain ⟨y, hy⟩ := execWord_ok h
  rw [hy, rspStatus_packRsp]

/-- R45: the response depends on the decoded instruction alone, so not on what stands in a field the decoder leaves out. -/
theorem execWord_congr {w w' : Cmd} (h : decode w = decode w') : execWord w = execWord w' := by
  rw [execWord, execWord, h]

/-- Settles O6: the decoder reads only the fields an operation uses, and the response follows the decoded instruction. -/
theorem unusedOperandFieldsAreIgnored : Obligations.UnusedOperandFieldsAreIgnored := by
  intro a b c
  refine ⟨?decoded, ?ignored, rfl, rfl, rfl, rfl, rfl⟩
  case decoded =>
    exact
      ⟨decode_packCmd_xor a b c, decode_packCmd_perm a b c, decode_packCmd_permi a b c, decode_packCmd_sub a b c,
       decode_packCmd_subi a b c, decode_packCmd_enc a b c, decode_packCmd_dec a b c⟩
  case ignored =>
    intro b' c'
    exact
      ⟨execWord_congr (by simp), execWord_congr (by simp), execWord_congr (by simp), execWord_congr (by simp),
       execWord_congr (by simp),
       rspStatus_execWord_ok (decode_packCmd_xor a b' c'), rspStatus_execWord_ok (decode_packCmd_perm a b' c'),
       rspStatus_execWord_ok (decode_packCmd_permi a b' c'), rspStatus_execWord_ok (decode_packCmd_sub a b' c'),
       rspStatus_execWord_ok (decode_packCmd_subi a b' c')⟩

/-- Settles O7: a reserved code is refused by the decoder, and a list of commands is answered one by one. -/
theorem reservedCodesAnswerInvalidArgument : Obligations.ReservedCodesAnswerInvalidArgument := by
  intro op a b c hop
  have hcode : op.wellFormed = false := by revert op; decide
  have hdec : decode (packCmd op a b c) = .error (.reservedOp op) := by
    simpa using decode_reserved (w := packCmd op a b c) (by simpa using hcode)
  have hexec := execWord_error hdec
  exact ⟨hdec, hexec, fun before after => by simp [runCommands, hexec]⟩

/-- Settles O8: a response has status `OK`, or it is the one error response of a reserved code. -/
theorem responseWordFields : Obligations.ResponseWordFields := by
  refine ⟨fun st y => ⟨toNat_packRsp st y, rspStatus_packRsp st y, rspResult_packRsp st y⟩,
    fun r => ⟨packRsp_fields r, rfl, rfl, charAt_rspResult r⟩, fun _ => rfl, rfl, rfl, fun w => ?_⟩
  obtain ⟨y, hy⟩ | herr := execWord_cases w
  · simp [hy]
  · simp [herr]

end Machine

end Sys2Proof
end

section
/-! PROOFS. The response to an `XOR` word, position by position (R53). -/

namespace Sys2Proof.Machine

/-- R53: an `XOR` word is answered with status `OK` and the exclusive-or of its first two operands. -/
@[simp] theorem execWord_packCmd_xor (a b c : Block) : execWord (packCmd 0x0#4 a b c) = packRsp 0 (xor12 a b) := by
  rw [execWord, decode_packCmd_xor]
  rfl

/-- R53: `y[j] = a[j] ^ b[j]`; there is no carry between positions. -/
@[simp] theorem getLsbD_xor12 (a b : Block) (j : Nat) : (xor12 a b).getLsbD j = (a.getLsbD j ^^ b.getLsbD j) :=
  BitVec.getLsbD_xor

@[simp] theorem xor12_self (a : Block) : xor12 a a = 0#12 := BitVec.xor_self

@[simp] theorem xor12_zero (a : Block) : xor12 a 0#12 = a := BitVec.xor_zero

/-- R53: exclusive-or with all ones is the bitwise complement. -/
@[simp] theorem xor12_allOnes (a : Block) : xor12 a 0xFFF#12 = ~~~a := BitVec.xor_allOnes

/-- Settles O28: an `XOR` word is answered with `XOR12` of its operands, and each clause is a fact about `XOR12`. -/
theorem xorIsPositional : Obligations.XorIsPositional := by
  refine ⟨fun a b c => ?positional, fun a => ?corners, ?workedExample⟩
  case positional =>
    exact ⟨xor12 a b, execWord_packCmd_xor a b c, rfl, charAt_xor12 a b, fun j => getLsbD_xor12 a b j⟩
  case corners =>
    exact ⟨by simp, by simp, by simp⟩
  case workedExample =>
    have hword : (0x0123456000 : Cmd) = packCmd 0x0#4 0x123 0x456 0x000 := by decide
    have hrsp : packRsp 0 (xor12 0x123 0x456) = 0x0575 := by decide
    rw [hword, execWord_packCmd_xor, hrsp]

end Sys2Proof.Machine
end

section
/-! PROOFS. Where the two P-Box operations move each bit of a block (R57, R58). -/

namespace Sys2Proof.Machine

open Sys2Proof.Spec

@[simp] theorem piMap_pMap (i : Fin 12) : piMap (pMap i) = i := by decide +revert

@[simp] theorem pMap_piMap (i : Fin 12) : pMap (piMap i) = i := by decide +revert

/-- R19: the P-Box as a bijection of the string indices, with the row `PI` as the inverse of the row `P`. -/
def pboxEquiv : Equiv.Perm (Fin 12) := ⟨pMap, piMap, piMap_pMap, pMap_piMap⟩

@[simp] theorem pboxEquiv_apply (i : Fin 12) : pboxEquiv i = pMap i := rfl

@[simp] theorem pboxEquiv_symm_apply (i : Fin 12) : pboxEquiv.symm i = piMap i := rfl

/-- R57: `y{P(i)} = a{i}`. -/
@[simp] theorem charAt_permBlock_pMap (a : Block) (i : Fin 12) : charAt (permBlock a) (pMap i) = charAt a i := by
  have hrow : (i, pMap i) ∈ pboxForward := by decide +revert
  exact charAt_permute pboxForward_targets hrow a

/-- R58: `y{PI(i)} = a{i}`. -/
@[simp] theorem charAt_permiBlock_piMap (a : Block) (i : Fin 12) : charAt (permiBlock a) (piMap i) = charAt a i := by
  have hrow : (i, piMap i) ∈ pboxInverse := by decide +revert
  exact charAt_permute pboxInverse_targets hrow a

/-- R57 read the other way: `y{t} = a{PI(t)}`. -/
theorem charAt_permBlock (a : Block) (t : Fin 12) : charAt (permBlock a) t = charAt a (piMap t) := by
  rw [← charAt_permBlock_pMap a (piMap t), pMap_piMap]

/-- R58 read the other way: `y{t} = a{P(t)}`. -/
theorem charAt_permiBlock (a : Block) (t : Fin 12) : charAt (permiBlock a) t = charAt a (pMap t) := by
  rw [← charAt_permiBlock_piMap a (pMap t), piMap_pMap]

/-- R9 with numeric bits: `a{11-j} = a[j]`. -/
theorem charAt_rev (a : Block) (j : Fin 12) : charAt a j.rev = a.getLsbD j := by
  have hj : 12 - (j.val + 1) = 12 - 1 - j.val := by omega
  rw [charAt, Fin.val_rev, hj, BitVec.getLsbD_eq_getMsbD, decide_eq_true j.isLt, Bool.true_and]

/-- Characters that only change places are as many ones as before. -/
theorem ones_eq_of_charAt_perm {a y : Block} (σ : Equiv.Perm (Fin 12)) (h : ∀ t, charAt y t = charAt a (σ t)) :
    ones y = ones a := by
  have hy : charAt y = charAt a ∘ σ := funext h
  calc ones y = ((List.finRange 12).map σ).countP (charAt a) := by rw [ones, hy, List.countP_map]
    _ = ones a := σ.map_finRange_perm.countP_eq _

theorem ones_permBlock (a : Block) : ones (permBlock a) = ones a :=
  ones_eq_of_charAt_perm pboxEquiv.symm (charAt_permBlock a)

theorem ones_permiBlock (a : Block) : ones (permiBlock a) = ones a :=
  ones_eq_of_charAt_perm pboxEquiv (charAt_permiBlock a)

/-- R57: a `PERM` word is answered with status `OK` and the forward P-Box of its first operand. -/
@[simp] theorem execWord_packCmd_perm (a b c : Block) : execWord (packCmd 0x2#4 a b c) = packRsp 0 (permBlock a) := by
  rw [execWord, decode_packCmd_perm]
  rfl

/-- R58: a `PERMI` word is answered with status `OK` and the inverse P-Box of its first operand. -/
@[simp] theorem execWord_packCmd_permi (a b c : Block) : execWord (packCmd 0x3#4 a b c) = packRsp 0 (permiBlock a) := by
  rw [execWord, decode_packCmd_permi]
  rfl

/-- Settles O30: a `PERM` word is answered with the forward P-Box, whose wiring is R57's; the fixed words are evaluated. -/
theorem permMovesEveryBit : Obligations.PermMovesEveryBit := by
  refine ⟨fun a b c => ⟨permBlock a, execWord_packCmd_perm a b c, ?_⟩, by decide⟩
  have hfixed : charAt (permBlock a) 5 = charAt a 5 := charAt_permBlock a 5
  have hbit6 : (permBlock a).getLsbD 6 = a.getLsbD 6 := by
    calc (permBlock a).getLsbD 6 = charAt (permBlock a) 5 := (charAt_rev (permBlock a) 6).symm
      _ = charAt a 5 := hfixed
      _ = a.getLsbD 6 := charAt_rev a 6
  exact ⟨charAt_permBlock_pMap a, charAt_permBlock a, hfixed, hbit6, ones_permBlock a⟩

/-- Settles O31: a `PERMI` word is answered with the inverse P-Box, whose wiring is R58's; the fixed words are evaluated. -/
theorem permiMovesEveryBit : Obligations.PermiMovesEveryBit := by
  refine ⟨fun a b c => ⟨permiBlock a, execWord_packCmd_permi a b c, ?_⟩, by decide⟩
  have hfixed : charAt (permiBlock a) 5 = charAt a 5 := charAt_permiBlock a 5
  exact ⟨charAt_permiBlock_piMap a, charAt_permiBlock a, hfixed, ones_permiBlock a⟩

end Sys2Proof.Machine
end

section
/-! PROOFS. What the two S-Box operations do to each group of a block, and what a missing entry does (R66, R67, R69). -/

namespace Sys2Proof.Machine

open Sys2Proof.Spec

/-- R65: the block whose groups are those of `a` put through `f`; `subBlock` and `subiBlock` answer such blocks
(`subBlock_eq_mapGroups`, `subiBlock_eq_mapGroups`). -/
def mapGroups (f : Group → Group) (a : Block) : Block :=
  ofGroups (f (groupAt a 0)) (f (groupAt a 1)) (f (groupAt a 2)) (f (groupAt a 3))

theorem subBlock_eq_mapGroups (a : Block) : subBlock a = .ok (mapGroups sMap a) := subBlock_eq a

theorem subiBlock_eq_mapGroups (a : Block) : subiBlock a = .ok (mapGroups siMap a) := subiBlock_eq a

@[simp] theorem groupAt_mapGroups (f : Group → Group) (a : Block) (k : Fin 4) :
    groupAt (mapGroups f a) k = f (groupAt a k) :=
  match k with
  | 0 => groupAt_ofGroups_0 _ _ _ _
  | 1 => groupAt_ofGroups_1 _ _ _ _
  | 2 => groupAt_ofGroups_2 _ _ _ _
  | 3 => groupAt_ofGroups_3 _ _ _ _

theorem isSub_mapGroups (a : Block) : IsSub a (mapGroups sMap a) := groupAt_mapGroups sMap a

theorem isSubi_mapGroups (a : Block) : IsSubi a (mapGroups siMap a) := groupAt_mapGroups siMap a

theorem sMap_ne_self (g : Group) : sMap g ≠ g := by decide +revert

theorem siMap_ne_self (g : Group) : siMap g ≠ g := by decide +revert

/-- R49: a word whose operation ends with the result `y` is answered with status `OK` and `y`. -/
theorem execWord_of_instrResult {w : Cmd} {i : Instr} {y : Block} (hw : decode w = .ok i) (hy : instrResult i = .ok y) :
    execWord w = packRsp 0 y := by
  simp [execWord, hw, hy, rspOf, okRsp]

/-- R66: a `SUB` word is answered with status `OK` and every group of its first operand through `S`. -/
@[simp] theorem execWord_packCmd_sub (a b c : Block) :
    execWord (packCmd 0x4#4 a b c) = packRsp 0 (mapGroups sMap a) :=
  execWord_of_instrResult (decode_packCmd_sub a b c) (subBlock_eq_mapGroups a)

/-- R67: a `SUBI` word is answered with status `OK` and every group of its first operand through `SI`. -/
@[simp] theorem execWord_packCmd_subi (a b c : Block) :
    execWord (packCmd 0x5#4 a b c) = packRsp 0 (mapGroups siMap a) :=
  execWord_of_instrResult (decode_packCmd_subi a b c) (subiBlock_eq_mapGroups a)

/-- Settles O35: a `SUB` word is answered group by group through `S`, which fixes no value; the fixed words are evaluated. -/
theorem subReplacesEveryGroup : Obligations.SubReplacesEveryGroup := by
  refine ⟨fun a b c => ⟨mapGroups sMap a, execWord_packCmd_sub a b c, isSub_mapGroups a, fun k => ?nofixed⟩, by decide⟩
  case nofixed =>
    rw [groupAt_mapGroups]
    exact sMap_ne_self (groupAt a k)

/-- Settles O36: a `SUBI` word is answered group by group through `SI`, which fixes no value; the fixed words are evaluated. -/
theorem subiReplacesEveryGroup : Obligations.SubiReplacesEveryGroup :=
  ⟨fun a b c => ⟨mapGroups siMap a, execWord_packCmd_subi a b c, isSubi_mapGroups a⟩, siMap_ne_self, by decide⟩

/-- R69: a value without an entry in the active map raises `LookupError`. -/
theorem lookupGroup_of_none {active : List (Group × Group)} {g : Group} (h : active.lookup g = none) :
    lookupGroup active g = .error .lookupError := by
  rw [lookupGroup, h]

/-- R69: the lookup of a group has no other error than `LookupError`. -/
theorem lookupGroup_ok_or_error (active : List (Group × Group)) (g : Group) :
    (∃ r, lookupGroup active g = .ok r) ∨ lookupGroup active g = .error .lookupError := by
  cases h : active.lookup g with
  | some r => exact .inl ⟨r, by rw [lookupGroup, h]⟩
  | none => exact .inr (lookupGroup_of_none h)

/-- R65, R111: when `e` is the only error a lane can have, a lane that fails makes the block fail with `e`, whichever of the
lanes before it fails first. -/
theorem onGroups_error {lane : Group → Except BlockError Group} {e : BlockError}
    (hlane : ∀ g, (∃ r, lane g = .ok r) ∨ lane g = .error e) {a : Block} {k : Fin 4} (hk : lane (groupAt a k) = .error e) :
    onGroups lane a = .error e := by
  unfold onGroups
  obtain ⟨r0, h0⟩ | h0 := hlane (groupAt a 0)
  case inr => rw [h0]; rfl
  obtain ⟨r1, h1⟩ | h1 := hlane (groupAt a 1)
  case inr => rw [h0, h1]; rfl
  obtain ⟨r2, h2⟩ | h2 := hlane (groupAt a 2)
  case inr => rw [h0, h1, h2]; rfl
  have h3 : lane (groupAt a 3) = .error e := by
    match k with
    | 0 => simp [h0] at hk
    | 1 => simp [h1] at hk
    | 2 => simp [h2] at hk
    | 3 => exact hk
  rw [h0, h1, h2, h3]
  rfl

/-- Settles O38: a missing entry is the lookup's only error, so it is the block's; the given tables have every entry. -/
theorem missingEntryRaisesLookupError : Obligations.MissingEntryRaisesLookupError := by
  refine ⟨fun _ _ h => lookupGroup_of_none h, fun active a k h => ?block, rfl,
    fun g => ⟨sboxUnit_forward g, sboxUnit_inverse g⟩, fun a => ⟨⟨_, subBlock_eq a⟩, ⟨_, subiBlock_eq a⟩⟩⟩
  case block => exact onGroups_error (lookupGroup_ok_or_error active) (lookupGroup_of_none h)

end Sys2Proof.Machine
end

section
/-! PROOFS. The two cipher operations as compositions of the box operations, stage by stage (R72, R74, R75). -/

namespace Sys2Proof.Machine

open Sys2Proof.Spec

/-- R19: the row `P` reaches every string index, so R57 leaves no freedom: `PERM(a)` is the model's `permBlock a`. -/
theorem isPerm_iff {a y : Block} : IsPerm a y ↔ permBlock a = y := by
  constructor
  · intro h
    refine block_ext fun t => ?_
    rw [charAt_permBlock, ← h, pMap_piMap]
  · rintro rfl
    exact charAt_permBlock_pMap a

/-- R19: the row `PI` reaches every string index, so R58 leaves no freedom: `PERMI(a)` is the model's `permiBlock a`. -/
theorem isPermi_iff {a y : Block} : IsPermi a y ↔ permiBlock a = y := by
  constructor
  · intro h
    refine block_ext fun t => ?_
    rw [charAt_permiBlock, ← h, piMap_pMap]
  · rintro rfl
    exact charAt_permiBlock_piMap a

/-- R65: a block is determined by its four groups. -/
theorem mapGroups_eq_of_groupAt {f : Group → Group} {a y : Block} (h : ∀ k, groupAt y k = f (groupAt a k)) :
    mapGroups f a = y := by
  rw [mapGroups, ← h, ← h, ← h, ← h, ofGroups_groupAt]

theorem isSub_iff {a y : Block} : IsSub a y ↔ mapGroups sMap a = y :=
  ⟨mapGroups_eq_of_groupAt, by rintro rfl; exact isSub_mapGroups a⟩

theorem isSubi_iff {a y : Block} : IsSubi a y ↔ mapGroups siMap a = y :=
  ⟨mapGroups_eq_of_groupAt, by rintro rfl; exact isSubi_mapGroups a⟩

/-- R72: the block `ROUND(x, k)`; `roundBlock` answers it (`roundBlock_ok`). -/
def roundValue (x k : Block) : Block := mapGroups sMap (permBlock (xor12 x k))

/-- R72: the block `UNROUND(x, k)`; `unroundBlock` answers it (`unroundBlock_ok`). -/
def unroundValue (x k : Block) : Block := xor12 (permiBlock (mapGroups siMap x)) k

theorem roundBlock_ok (x k : Block) : roundBlock x k = .ok (roundValue x k) := subBlock_eq_mapGroups _

theorem unroundBlock_ok (x k : Block) : unroundBlock x k = .ok (unroundValue x k) := by
  rw [unroundBlock, subiBlock_eq_mapGroups]
  rfl

/-- R74: `ENC(a, b, c) = ROUND(ROUND(a, b), XOR12(b, c))`. -/
theorem encBlock_ok (a b c : Block) : encBlock a b c = .ok (roundValue (roundValue a b) (xor12 b c)) := by
  rw [encBlock, roundBlock_ok]
  exact roundBlock_ok _ _

/-- R75: `DEC(a, b, c) = UNROUND(UNROUND(a, XOR12(b, c)), b)`. -/
theorem decBlock_ok (a b c : Block) : decBlock a b c = .ok (unroundValue (unroundValue a (xor12 b c)) b) := by
  rw [decBlock, unroundBlock_ok]
  exact unroundBlock_ok _ _

/-- R74: the stages of `ENC` compose to the two rounds. -/
theorem isEnc_iff {a b c y : Block} : IsEnc a b c y ↔ roundValue (roundValue a b) (xor12 b c) = y := by
  simp [IsEnc, isPerm_iff, isSub_iff, roundValue, xor12]

/-- R75: the stages of `DEC` compose to the two undone rounds. -/
theorem isDec_iff {a b c y : Block} : IsDec a b c y ↔ unroundValue (unroundValue a (xor12 b c)) b = y := by
  simp [IsDec, isPermi_iff, isSubi_iff, unroundValue, xor12, eq_comm]

/-- R74: an `ENC` word is answered with status `OK` and two rounds of its first operand. -/
@[simp] theorem execWord_packCmd_enc (a b c : Block) :
    execWord (packCmd 0x6#4 a b c) = packRsp 0 (roundValue (roundValue a b) (xor12 b c)) :=
  execWord_of_instrResult (decode_packCmd_enc a b c) (encBlock_ok a b c)

/-- R75: a `DEC` word is answered with status `OK` and two undone rounds of its first operand. -/
@[simp] theorem execWord_packCmd_dec (a b c : Block) :
    execWord (packCmd 0x7#4 a b c) = packRsp 0 (unroundValue (unroundValue a (xor12 b c)) b) :=
  execWord_of_instrResult (decode_packCmd_dec a b c) (decBlock_ok a b c)

/-- R49: the response to a word that decodes is how its operation ends. -/
theorem execWord_eq_rspOf {w : Cmd} {i : Instr} (h : decode w = .ok i) : execWord w = rspOf (instrResult i) := by
  rw [execWord, h]

/-- Settles O39: an `ENC` word is answered with two rounds, which are R74's stages; zero keys leave the stages' inputs as they
are, and the fixed words and stages are evaluated. -/
theorem encIsTwoKeyedRounds : Obligations.EncIsTwoKeyedRounds := by
  have hstages : ∀ a b c, ∃ y, IsEnc a b c y ∧ execWord (packCmd 0x6 a b c) = packRsp 0 y :=
    fun a b c => ⟨_, isEnc_iff.2 rfl, execWord_packCmd_enc a b c⟩
  refine ⟨hstages, fun a b c => ?composition, fun a => ?zeroKeys, ?fixedWords⟩
  case composition => exact (execWord_eq_rspOf (decode_packCmd_enc a b c)).symm
  case zeroKeys =>
    obtain ⟨y, ⟨r1, q1, s1, kx, r2, q2, rfl, hq1, hs1, rfl, rfl, hq2, hy⟩, hrsp⟩ := hstages a 0#12 0#12
    rw [BitVec.xor_zero] at hq1
    rw [BitVec.xor_self, BitVec.xor_zero] at hq2
    exact ⟨q1, s1, q2, y, hq1, hs1, hq2, hy, hrsp⟩
  case fixedWords =>
    simp only [isPerm_iff, isSub_iff]
    decide

/-- Settles O40: a `DEC` word is answered with two undone rounds, which are R75's stages; the fixed words and stages are
evaluated. -/
theorem decUndoesTwoKeyedRounds : Obligations.DecUndoesTwoKeyedRounds := by
  refine ⟨fun a b c => ⟨_, isDec_iff.2 rfl, execWord_packCmd_dec a b c⟩, fun a b c => ?composition, ?fixedWords⟩
  case composition => exact (execWord_eq_rspOf (decode_packCmd_dec a b c)).symm
  case fixedWords =>
    simp only [isPermi_iff, isSubi_iff]
    decide

end Sys2Proof.Machine
end

section
/-! PROOFS. Padding to a multiple, the alphabet check and the alignment of three bit-strings (R85, R88). -/

namespace Sys2Proof.Machine

/-- R88: the rounded length as the number of blocks that hold `n`, a rounded-up quotient, times `m`. -/
theorem roundUp_eq_ceilDiv_mul (m n : Nat) : roundUp m n = n ⌈/⌉ m * m := by
  rw [roundUp, Nat.ceilDiv_eq_add_pred_div]

theorem dvd_roundUp (m n : Nat) : m ∣ roundUp m n := Nat.dvd_mul_left m _

theorem le_roundUp {m : Nat} (hm : 0 < m) (n : Nat) : n ≤ roundUp m n := by
  rw [roundUp_eq_ceilDiv_mul, Nat.mul_comm]
  exact le_smul_ceilDiv hm

/-- R88: no smaller multiple of `m` holds `n`. -/
theorem roundUp_le_of_dvd {m n k : Nat} (hm : 0 < m) (hdvd : m ∣ k) (hle : n ≤ k) : roundUp m n ≤ k := by
  obtain ⟨q, rfl⟩ := hdvd
  have hq : n ⌈/⌉ m ≤ q := (ceilDiv_le_iff_le_mul hm).2 hle
  rw [roundUp_eq_ceilDiv_mul, Nat.mul_comm]
  exact Nat.mul_le_mul_left m hq

/-- R88: zeros on the left keep the value. -/
@[simp] theorem bitsValue_padLeft (n : Nat) (s : BitStr) : bitsValue (padLeft n s) = bitsValue s := by
  rw [padLeft, bitsValue_append, bitsValue_zeros, Nat.zero_mul, Nat.zero_add]

/-- R85: a character outside the alphabet fails the check. -/
theorem checkAlphabet_bad {cs : List Char} (h : ∃ ch ∈ cs, ch ≠ '0' ∧ ch ≠ '1') :
    checkAlphabet cs = .error (.raised .invalidArgument) := by
  obtain ⟨ch, hmem, hch⟩ := h
  have hall : ¬ cs.all (fun c => c == '0' || c == '1') := fun h => by
    have hgood := List.all_eq_true.1 h ch hmem
    simp [hch] at hgood
  rw [checkAlphabet, if_neg hall]
  rfl

/-- R85: the check has no other error than `InvalidArgument`. -/
theorem checkAlphabet_ok_or_error (cs : List Char) :
    (∃ s, checkAlphabet cs = .ok s) ∨ checkAlphabet cs = .error (.raised .invalidArgument) := by
  unfold checkAlphabet
  split
  · exact .inl ⟨_, rfl⟩
  · exact .inr rfl

theorem onChars_bad {α : Type} (op : BitStr → Proc α) {cs : List Char} (h : ∃ ch ∈ cs, ch ≠ '0' ∧ ch ≠ '1') :
    onChars op cs = .error (.raised .invalidArgument) := by
  rw [onChars, checkAlphabet_bad h]
  rfl

/-- R85: one argument outside the alphabet is enough, whichever of the arguments before it fails first. -/
theorem onChars3_bad {α : Type} (op : BitStr → BitStr → BitStr → Proc α) {as bs cs : List Char}
    (h : ∃ ch, (ch ∈ as ∨ ch ∈ bs ∨ ch ∈ cs) ∧ ch ≠ '0' ∧ ch ≠ '1') :
    onChars3 op as bs cs = .error (.raised .invalidArgument) := by
  unfold onChars3
  obtain ⟨a, ha⟩ | ha := checkAlphabet_ok_or_error as
  case inr => rw [ha]; rfl
  obtain ⟨b, hb⟩ | hb := checkAlphabet_ok_or_error bs
  case inr => rw [ha, hb]; rfl
  have hc : checkAlphabet cs = .error (.raised .invalidArgument) := by
    obtain ⟨ch, hmem | hmem | hmem, hch⟩ := h
    · simp [checkAlphabet_bad ⟨ch, hmem, hch⟩] at ha
    · simp [checkAlphabet_bad ⟨ch, hmem, hch⟩] at hb
    · exact checkAlphabet_bad ⟨ch, hmem, hch⟩
  rw [ha, hb, hc]
  rfl

theorem alignToTriple_empty {a b c : BitStr} (h : a = [] ∨ b = [] ∨ c = []) :
    alignToTriple a b c = .error (.raised .invalidArgument) := by
  rw [alignToTriple, if_pos (by simpa [or_assoc] using h)]
  rfl

theorem alignToTriple_ok {a b c : BitStr} (ha : a ≠ []) (hb : b ≠ []) (hc : c ≠ []) {n : Nat}
    (hn : n = roundUp 12 (max (max a.length b.length) c.length)) :
    alignToTriple a b c = .ok (padLeft n a, padLeft n b, padLeft n c) := by
  subst hn
  rw [alignToTriple, if_neg (by simp [ha, hb, hc])]
  rfl

/-- Settles O47: the common length is the longest argument's, rounded up; the rest is what padding and rounding do. -/
theorem alignPadsToOneLength : Obligations.AlignPadsToOneLength := by
  refine ⟨fun a b c => alignToTriple_empty, fun a b c ha hb hc => ?aligned, fun as bs cs => onChars3_bad alignToTriple⟩
  case aligned =>
    obtain ⟨n, hn⟩ : ∃ n, n = roundUp 12 (max (max a.length b.length) c.length) := ⟨_, rfl⟩
    have hle : max (max a.length b.length) c.length ≤ n := hn ▸ le_roundUp (by decide) _
    have hleast : ∀ m, 12 ∣ m → max (max a.length b.length) c.length ≤ m → n ≤ m := fun m hdvd hm =>
      hn ▸ roundUp_le_of_dvd (by decide) hdvd hm
    exact
      ⟨n, padLeft n a, padLeft n b, padLeft n c, alignToTriple_ok ha hb hc hn,
       length_padLeft (by omega), length_padLeft (by omega), length_padLeft (by omega),
       hn ▸ dvd_roundUp 12 _, hle, hleast, rfl, rfl, rfl,
       bitsValue_padLeft n a, bitsValue_padLeft n b, bitsValue_padLeft n c⟩

end Sys2Proof.Machine
end

section
/-! PROOFS. The chunks a bit-string is cut into (R90). -/

namespace Sys2Proof.Machine

/-- R90: the first `k` of the chunks of `n` are together the first `n * k` characters. -/
theorem flatten_map_range_take_drop (n k : Nat) (s : BitStr) :
    ((List.range k).map fun j => (s.drop (n * j)).take n).flatten = s.take (n * k) := by
  induction k with
  | zero => simp
  | succ k ih => simp [List.range_succ, ih, Nat.mul_succ, List.take_add]

/-- R90: `ceil(len / n)` chunks. -/
@[simp] theorem length_chunks (n : Nat) (s : BitStr) : (chunks n s).length = (s.length + n - 1) / n := by
  simp [chunks]

/-- R90: the chunks are together the whole string, since enough of them are taken. -/
@[simp] theorem flatten_chunks {n : Nat} (hn : 0 < n) (s : BitStr) : (chunks n s).flatten = s := by
  have hle : s.length ≤ n * ((s.length + n - 1) / n) := by
    rw [Nat.mul_comm]
    exact le_roundUp hn s.length
  rw [chunks, flatten_map_range_take_drop, List.take_of_length_le hle]

/-- R90: a chunk is cut off only where the string ends. -/
theorem length_of_getElem?_chunks {n j : Nat} {s g : BitStr} (h : (chunks n s)[j]? = some g) :
    j < (s.length + n - 1) / n ∧ g.length = min n (s.length - n * j) := by
  obtain ⟨hj, rfl⟩ := List.getElem?_eq_some_iff.1 h
  exact ⟨length_chunks n s ▸ hj, by simp [chunks]⟩

theorem splitIntoBlocks_ok {s : BitStr} (h : s ≠ []) : splitIntoBlocks s = .ok (chunks 12 s) := by
  rw [splitIntoBlocks, if_neg (by simpa using h)]
  rfl

/-- Settles O48: the blocks are the chunks of 12. -/
theorem splitIntoBlocksConcatenates : Obligations.SplitIntoBlocksConcatenates := by
  refine ⟨rfl, fun cs => onChars_bad splitIntoBlocks, fun s hs => ?blocks⟩
  case blocks =>
    refine ⟨chunks 12 s, splitIntoBlocks_ok hs, flatten_chunks (by decide) s, length_chunks 12 s, fun j g hg => ?_⟩
    obtain ⟨hj, hlen⟩ := length_of_getElem?_chunks hg
    rw [hlen, length_chunks]
    split <;> omega

end Sys2Proof.Machine
end

section
/-! PROOFS. The eight bits of each character of a text, and when a text has none (R86). -/

namespace Sys2Proof.Machine

open Sys2Proof.Spec

/-- R98: when `e` is the only error a procedure can have, an element it fails on makes the list fail with `e`. -/
theorem mapM_error {α β ε : Type} {f : α → Except ε β} {e : ε} (hf : ∀ x, (∃ y, f x = .ok y) ∨ f x = .error e) {l : List α}
    (h : ∃ x ∈ l, f x = .error e) : l.mapM f = .error e := by
  induction l with
  | nil => simp at h
  | cons x l ih =>
    rw [List.mapM_cons]
    obtain ⟨y, hy⟩ | hx := hf x
    · have hl : l.mapM f = .error e := ih (by simpa [hy] using h)
      rw [hy, hl]
      rfl
    · rw [hx]
      rfl

/-- Among groups of `n`, character `j` of group `i` stands at `n * i + j`. -/
theorem getElem?_flatten_of_length {α : Type} {n i j : Nat} {gs : List (List α)} (hgs : ∀ g ∈ gs, g.length = n) (hj : j < n)
    (hi : i < gs.length) : gs.flatten[n * i + j]? = gs[i][j]? := by
  induction gs generalizing i with
  | nil => simp at hi
  | cons g gs ih =>
    have hg : g.length = n := hgs g (by simp)
    cases i with
    | zero => simp [List.getElem?_append_left (show j < g.length by omega)]
    | succ i =>
      have hpos : n * (i + 1) + j = g.length + (n * i + j) := by rw [hg]; ring
      simp only [List.flatten_cons, List.getElem_cons_succ, hpos]
      rw [List.getElem?_append_right (by omega), Nat.add_sub_cancel_left]
      exact ih (fun x hx => hgs x (by simp [hx])) (by simpa using hi)

/-- R86: bits stand most significant first. -/
theorem getElem?_bitsOf {n i : Nat} (v : Nat) (h : i < n) : (bitsOf n v)[i]? = some (v.testBit (n - 1 - i)) := by
  simp [bitsOf, h]

theorem isPicture_iff {c : Nat} : isPicture c = true ↔ 0x2400 ≤ c ∧ c ≤ 0x2420 := by simp [isPicture]

theorem charCode_ok {c : Nat} (h : encodable c) : charCode c = .ok (codeOf c) := by
  by_cases hp : 0x2400 ≤ c ∧ c ≤ 0x2420
  · have hpic := isPicture_iff.2 hp
    rw [charCode, if_pos hpic, valueOf, if_pos hpic, codeOf, if_pos hp]
  · have hc : c ≤ 255 := h.resolve_right hp
    rw [charCode, if_neg (by rwa [isPicture_iff]), if_pos hc, codeOf, if_neg hp]

theorem charCode_error {c : Nat} (h : ¬ encodable c) : charCode c = .error (.raised .outOfRange) := by
  obtain ⟨hc, hp⟩ := not_or.1 h
  rw [charCode, if_neg (by rwa [isPicture_iff]), if_neg hc]
  rfl

theorem charCode_ok_or_error (c : Nat) : (∃ v, charCode c = .ok v) ∨ charCode c = .error (.raised .outOfRange) := by
  by_cases h : encodable c
  · exact .inl ⟨_, charCode_ok h⟩
  · exact .inr (charCode_error h)

/-- R86: a code fits in its eight bits. -/
theorem codeOf_lt {c : Nat} (h : encodable c) : codeOf c < 256 := by
  unfold codeOf encodable at *
  split <;> omega

theorem encodeText_ok {t : Text} (ht : t ≠ []) (h : ∀ c ∈ t, encodable c) :
    encodeText t = .ok (t.map fun c => bitsOf 8 (codeOf c)).flatten := by
  have hcodes : t.mapM charCode = .ok (t.map codeOf) := mapM_ok t fun c hc => charCode_ok (h c hc)
  have hgroups : (t.map codeOf).map (bitsOf 8) = t.map fun c => bitsOf 8 (codeOf c) := List.map_map
  rw [encodeText, if_neg (by simpa using ht), hcodes, ← hgroups]
  rfl

theorem encodeText_error {t : Text} (h : ∃ c ∈ t, ¬ encodable c) : encodeText t = .error (.raised .outOfRange) := by
  obtain ⟨c, hmem, hc⟩ := h
  have hcodes : t.mapM charCode = .error (.raised .outOfRange) := mapM_error charCode_ok_or_error ⟨c, hmem, charCode_error hc⟩
  rw [encodeText, if_neg (by simpa using List.ne_nil_of_mem hmem), hcodes]
  rfl

/-- Settles O45: a text's bits are the eight bits of each code in a row; the fixed texts are evaluated. -/
theorem encodeTextGivesEightBitsEach : Obligations.EncodeTextGivesEightBitsEach := by
  refine ⟨rfl, fun t ht h => ?encoded, fun t => encodeText_error, by decide⟩
  case encoded =>
    have hgroups : ∀ g ∈ t.map (fun c => bitsOf 8 (codeOf c)), g.length = 8 := by simp
    refine ⟨_, encodeText_ok ht h, ?length, fun i hi j => ⟨?bit, codeOf_lt (h t[i] (List.getElem_mem hi))⟩⟩
    case length => simp [Function.comp_def, Nat.mul_comm]
    case bit =>
      rw [getElem?_flatten_of_length hgroups j.isLt (by simpa using hi), List.getElem_map]
      exact getElem?_bitsOf (codeOf t[i]) j.isLt

end Sys2Proof.Machine
end

section
/-! PROOFS. Decoding and encoding undo each other up to the fields an operation does not use, and the status follows the code
(R44, R45, R46, R49). -/

namespace Sys2Proof

open Spec

/-- R44, R45: an instruction's word decodes to the instruction. -/
@[simp] theorem decode_encode (i : Instr) : decode (encode i) = .ok i := by
  cases i with
  | xor a b => exact decode_packCmd_xor a b 0#12
  | perm a => exact decode_packCmd_perm a 0#12 0#12
  | permi a => exact decode_packCmd_permi a 0#12 0#12
  | sub a => exact decode_packCmd_sub a 0#12 0#12
  | subi a => exact decode_packCmd_subi a 0#12 0#12
  | enc a b c => exact decode_packCmd_enc a b c
  | dec a b c => exact decode_packCmd_dec a b c

theorem cmd_ofNat_toNat_mod (w : Cmd) : BitVec.ofNat 40 (w.toNat % 2 ^ 40) = w := by
  rw [Nat.mod_eq_of_lt w.isLt, BitVec.ofNat_toNat, BitVec.setWidth_eq]

/-- R48: the opcode table numbers the bits of a command word as the block does. -/
theorem decodeTableWord_of_decode {w : Cmd} {i : Instr} (h : decode w = .ok i) : decodeTableWord 40 w.toNat = some i := by
  rw [decodeTableWord, if_pos le_rfl, cmd_ofNat_toNat_mod, h]

/-- Settles O4: an instruction's word decodes to it, and the table's numbering reads the same word. -/
theorem decodeOfEncodeIsIdentity : Obligations.DecodeOfEncodeIsIdentity := by
  intro i
  exact ⟨by cases i <;> rfl, decode_encode i, decodeTableWord_of_decode (decode_encode i)⟩

/-- R44: a word that decodes is the packing of its instruction's code and of operands from which the instruction is made. -/
theorem exists_packCmd_of_decode {w : Cmd} {i : Instr} (h : decode w = .ok i) :
    ∃ a b c, w = packCmd i.opcode a b c ∧
      i ∈ [Instr.xor a b, .perm a, .permi a, .sub a, .subi a, .enc a b c, .dec a b c] := by
  refine ⟨cmdA w, cmdB w, cmdC w, ?_⟩
  have hpack : ∀ op : Opcode, (cmdOp w).toNat = op.toNat → w = packCmd op (cmdA w) (cmdB w) (cmdC w) := fun op hop => by
    rw [← BitVec.eq_of_toNat_eq hop, packCmd_fields]
  unfold decode at h
  split at h
  case h_8 => cases h
  all_goals
    next hop =>
      cases h
      exact ⟨hpack _ hop, by simp⟩

theorem cmdOp_of_decode {w : Cmd} {i : Instr} (h : decode w = .ok i) : cmdOp w = i.opcode := by
  obtain ⟨a, b, c, hw, -⟩ := exists_packCmd_of_decode h
  rw [hw, cmdOp_packCmd]

/-- Masking a command word masks each of its fields. -/
theorem packCmd_and (op op' : Opcode) (a b c a' b' c' : Block) :
    packCmd op a b c &&& packCmd op' a' b' c' = packCmd (op &&& op') (a &&& a') (b &&& b') (c &&& c') := by
  rw [packCmd, packCmd, BitVec.and_append (x₁ := op ++ a ++ b), BitVec.and_append, BitVec.and_append]
  rfl

/-- Settles O5: each operation's mask is full in the fields it uses and zero in the others. -/
theorem encodeOfDecodeClearsUnusedFields : Obligations.EncodeOfDecodeClearsUnusedFields := by
  intro w i h
  obtain ⟨a, b, c, rfl, hi⟩ := exists_packCmd_of_decode h
  have hab : (0xFFFFFFF000 : Cmd) = packCmd 0xF 0xFFF 0xFFF 0 := by decide
  have ha : (0xFFFF000000 : Cmd) = packCmd 0xF 0xFFF 0 0 := by decide
  have habc : (0xFFFFFFFFFF : Cmd) = packCmd 0xF 0xFFF 0xFFF 0xFFF := by decide
  have hop : ∀ op : Opcode, op &&& 0xF = op := fun op => BitVec.and_allOnes
  have hfull : ∀ x : Block, x &&& 0xFFF = x := fun x => BitVec.and_allOnes
  have hnone : ∀ x : Block, x &&& 0 = 0#12 := fun x => BitVec.and_zero
  simp only [List.mem_cons, List.not_mem_nil, or_false] at hi
  obtain rfl | rfl | rfl | rfl | rfl | rfl | rfl := hi
  all_goals simp only [encode, usedBits, hab, ha, habc, packCmd_and, hop, hfull, hnone]

/-- R44, R46: the codes that are no reserved ones. -/
theorem wellFormed_opcode_iff {op : Opcode} : op.wellFormed = true ↔ op.getLsbD 3 = false ∧ op ≠ 0x1#4 := by
  simp [Opcode.wellFormed]

/-- R47: a word whose code is not reserved decodes. -/
theorem exists_decode_of_wellFormed {w : Cmd} (h : Opcode.wellFormed (cmdOp w) = true) : ∃ i, decode w = .ok i := by
  have hcodes : ∀ op : Opcode, op.wellFormed = true → op ∈ [0x0#4, 0x2#4, 0x3#4, 0x4#4, 0x5#4, 0x6#4, 0x7#4] := by decide
  have hop := hcodes _ h
  rw [← packCmd_fields w]
  generalize cmdOp w = op at hop ⊢
  fin_cases hop
  · exact ⟨_, decode_packCmd_xor _ _ _⟩
  · exact ⟨_, decode_packCmd_perm _ _ _⟩
  · exact ⟨_, decode_packCmd_permi _ _ _⟩
  · exact ⟨_, decode_packCmd_sub _ _ _⟩
  · exact ⟨_, decode_packCmd_subi _ _ _⟩
  · exact ⟨_, decode_packCmd_enc _ _ _⟩
  · exact ⟨_, decode_packCmd_dec _ _ _⟩

/-- R44: the mask of the opcode table keeps the code alone. -/
theorem cmdOp_of_masked {w : Cmd} {op : Opcode} (h : w &&& 0xF000000000#40 = packCmd op 0 0 0) : cmdOp w = op := by
  have hmask : (0xF000000000#40 : Cmd) = packCmd 0xF 0 0 0 := by decide
  have hop : cmdOp w &&& 0xF = cmdOp w := BitVec.and_allOnes
  rw [← packCmd_fields w, hmask, packCmd_and, hop] at h
  simpa using congrArg cmdOp h

theorem decode_of_masked {w : Cmd} {op : Opcode} {i : Instr} (h : w &&& 0xF000000000#40 = packCmd op 0 0 0)
    (hi : decode (packCmd op (cmdA w) (cmdB w) (cmdC w)) = .ok i) : decode w = .ok i := by
  rwa [← cmdOp_of_masked h, packCmd_fields] at hi

namespace Machine

/-- R44: a row of the opcode table whose match value is a word's masked value gives the word's instruction. -/
theorem decode_of_row {w : Cmd} {row : Cmd × Instr} (hrow : row ∈ rows (cmdA w) (cmdB w) (cmdC w))
    (h : w &&& 0xF000000000#40 = row.1) : decode w = .ok row.2 := by
  simp only [rows, List.mem_cons, List.not_mem_nil, or_false] at hrow
  obtain rfl | rfl | rfl | rfl | rfl | rfl | rfl := hrow
  · exact decode_of_masked (h.trans (show 0x0000000000#40 = packCmd 0x0 0 0 0 by decide)) (decode_packCmd_xor _ _ _)
  · exact decode_of_masked (h.trans (show 0x2000000000#40 = packCmd 0x2 0 0 0 by decide)) (decode_packCmd_perm _ _ _)
  · exact decode_of_masked (h.trans (show 0x3000000000#40 = packCmd 0x3 0 0 0 by decide)) (decode_packCmd_permi _ _ _)
  · exact decode_of_masked (h.trans (show 0x4000000000#40 = packCmd 0x4 0 0 0 by decide)) (decode_packCmd_sub _ _ _)
  · exact decode_of_masked (h.trans (show 0x5000000000#40 = packCmd 0x5 0 0 0 by decide)) (decode_packCmd_subi _ _ _)
  · exact decode_of_masked (h.trans (show 0x6000000000#40 = packCmd 0x6 0 0 0 by decide)) (decode_packCmd_enc _ _ _)
  · exact decode_of_masked (h.trans (show 0x7000000000#40 = packCmd 0x7 0 0 0 by decide)) (decode_packCmd_dec _ _ _)

/-- Settles O3: the code decides; a row of the table, a reserved code and a code that is not reserved are its cases. -/
theorem decodeFollowsTheOpcodeMap : Obligations.DecodeFollowsTheOpcodeMap := by
  refine ⟨fun w row hrow h => ?row, fun w i h => ?bits, fun w h => ?reserved, fun w h3 h1 => ?defined⟩
  case row =>
    have hdec := decode_of_row hrow h
    exact ⟨hdec, execWord_eq_rspOf hdec⟩
  case bits =>
    rw [cmdOp_of_decode h]
    cases i <;> simp only [Instr.opcode, unitOf, senseOf] <;> decide
  case reserved =>
    refine decode_reserved (Bool.eq_false_iff.2 fun hwf => ?_)
    obtain ⟨h3, h1⟩ := wellFormed_opcode_iff.1 hwf
    exact h.elim (fun h => Bool.false_ne_true (h3.symm.trans h)) h1
  case defined => exact exists_decode_of_wellFormed (wellFormed_opcode_iff.2 ⟨h3, h1⟩)

/-- R43: the two fields of a well-formed response. -/
theorem wellFormed_rsp_eq (r : Rsp) :
    Rsp.wellFormed r = (rspStatus r != 3#2 && (rspStatus r == 0#2 || rspResult r == 0#12)) := rfl

/-- R43, R107: a response with status `OK` conforms, whatever its result. -/
theorem conformingRsp_packRsp_ok (y : Block) : conformingRsp (packRsp 0 y) = true := by
  simp [conformingRsp, wellFormed_rsp_eq, statusCode]

/-- R49, R107: every command is answered as a conforming block may. -/
@[simp] theorem conformingRsp_execWord (w : Cmd) : conformingRsp (execWord w) = true := by
  obtain ⟨y, hy⟩ | herr := execWord_cases w
  · rw [hy, conformingRsp_packRsp_ok]
  · rw [herr]
    decide

/-- Settles O9: a code that is not reserved decodes and is answered `OK`, a reserved one `INVALID_ARGUMENT`. -/
theorem statusFollowsTheOperationCode : Obligations.StatusFollowsTheOperationCode := by
  refine fun w => ⟨?status, conformingRsp_execWord w⟩
  have hwf : Cmd.wellFormed w = Opcode.wellFormed (cmdOp w) := rfl
  rw [hwf]
  cases h : Opcode.wellFormed (cmdOp w)
  case true =>
    obtain ⟨i, hi⟩ := exists_decode_of_wellFormed h
    exact rspStatus_execWord_ok hi
  case false =>
    rw [execWord_error (decode_reserved h)]
    exact rspStatus_packRsp 1 0

/-- Settles O1: the words are literals, which the decoder evaluates. -/
theorem exampleWordsDecode : Obligations.ExampleWordsDecode := by
  unfold Obligations.ExampleWordsDecode
  decide

end Machine

end Sys2Proof
end

section
/-! PROOFS. What an operation and an accepted command leave in the state, from every state (R24, R26, R49). -/

namespace Sys2Proof.Machine

open Sys2Proof.Spec

/-- R24, R26: what the statements call a state with a response is the model's queue with the response at its end. -/
theorem withResponse_eq_enqueue (s : State) (r : Rsp) : withResponse s r = enqueue r s := rfl

/-- R49: an operation with a result puts exactly its response in flight. -/
theorem exec_of_instrResult {i : Instr} {y : Block} (h : instrResult i = .ok y) (s : State) :
    exec i s = .next (withResponse s (packRsp 0 y)) := by
  rw [exec_next, h, withResponse_eq_enqueue]
  rfl

/-- Settles O10: the result is the model's `XOR12`, bit by bit. -/
theorem xorRunsFromEveryState : Obligations.XorRunsFromEveryState :=
  fun a b s => ⟨xor12 a b, fun j => getLsbD_xor12 a b j, exec_of_instrResult rfl s⟩

/-- Settles O11: the results are the model's P-Box blocks. -/
theorem pboxOperationsRunFromEveryState : Obligations.PboxOperationsRunFromEveryState :=
  fun _ s => ⟨⟨_, isPerm_iff.2 rfl, exec_of_instrResult rfl s⟩, ⟨_, isPermi_iff.2 rfl, exec_of_instrResult rfl s⟩⟩

/-- Settles O12: the results are the model's S-Box blocks. -/
theorem sboxOperationsRunFromEveryState : Obligations.SboxOperationsRunFromEveryState :=
  fun a s => ⟨⟨_, isSub_mapGroups a, exec_of_instrResult (i := .sub a) (subBlock_eq_mapGroups a) s⟩,
    ⟨_, isSubi_mapGroups a, exec_of_instrResult (i := .subi a) (subiBlock_eq_mapGroups a) s⟩⟩

/-- Settles O13: the results are the two rounds and the two undone rounds, which are the rules' stages. -/
theorem cipherOperationsRunFromEveryState : Obligations.CipherOperationsRunFromEveryState :=
  fun a b c s => ⟨⟨_, isEnc_iff.2 rfl, exec_of_instrResult (i := .enc a b c) (encBlock_ok a b c) s⟩,
    ⟨_, isDec_iff.2 rfl, exec_of_instrResult (i := .dec a b c) (decBlock_ok a b c) s⟩⟩

/-- Settles O14: an operation's next state is the old one with its response at the end of the queue. -/
theorem operationsChangeOnlyTheQueue : Obligations.OperationsChangeOnlyTheQueue := by
  intro i s t h
  obtain ⟨y, hy⟩ := instrResult_ok i
  cases (exec_of_instrResult hy s).symm.trans h
  exact ⟨rfl, rfl, rfl, rfl, rfl, packRsp 0 y, rfl, rspStatus_packRsp 0 y⟩

/-- Settles O15: a word that decodes is answered as its operation ends, any other with `INVALID_ARGUMENT`, on both levels. -/
theorem machineAgreesWithExec : Obligations.MachineAgreesWithExec := by
  intro w s
  cases h : decode w with
  | ok i => rw [acceptCommand_ok h, execWord_eq_rspOf h, withResponse_eq_enqueue]
  | error e => rw [acceptCommand_reserved h, withResponse_eq_enqueue, execWord, h]

/-- Settles O26: raising an error puts the kind's response in flight and does nothing else. -/
theorem errorRecordsOnlyItsStatus : Obligations.ErrorRecordsOnlyItsStatus :=
  fun s => ⟨raiseError_next .invalidArgument s, raiseError_next .lookupError s⟩

end Sys2Proof.Machine
end

section
/-! PROOFS. One edge as a function of the state, and any number of edges as its iterate (R24, R119). -/

namespace Sys2Proof.Machine

/-- The state within an edge with `rst = 0`: the command on the pins is accepted, the response that is due is not shown yet. -/
def midEdge (s : State) : State :=
  { beginEdge s with
    inflight := s.inflight.map InFlight.tick ++
      (acceptedBy (pinsNow s)).toList.map fun w => { wait := s.latency, rsp := execWord w } }

/-- The state after one edge; a step answers it (`step_eq_nextState`). -/
def nextState (s : State) : State := if (pinsNow s).rst then resetEdge s else endEdge (midEdge s)

@[simp] theorem midEdge_latency (s : State) : (midEdge s).latency = s.latency := rfl
@[simp] theorem midEdge_out (s : State) : (midEdge s).out = none := rfl
@[simp] theorem midEdge_inputs (s : State) : (midEdge s).inputs = s.inputs.tail := rfl
@[simp] theorem midEdge_seen (s : State) : (midEdge s).seen = s.seen := rfl
theorem midEdge_inflight (s : State) :
    (midEdge s).inflight = s.inflight.map InFlight.tick ++
      (acceptedBy (pinsNow s)).toList.map fun w => { wait := s.latency, rsp := execWord w } := rfl

theorem nextState_of_rst {s : State} (h : (pinsNow s).rst = true) : nextState s = resetEdge s := if_pos h

theorem nextState_of_not_rst {s : State} (h : (pinsNow s).rst = false) : nextState s = endEdge (midEdge s) := by
  rw [nextState, h]
  rfl

/-- R24, R118: every step answers the state after the edge. -/
theorem step_eq_nextState (s : State) : step s = .next (nextState s) := by
  obtain ⟨hr, hstep⟩ | ⟨hr, hv, hstep⟩ | ⟨hr, hv, hstep⟩ := step_cases s
  · rw [hstep, nextState_of_rst hr]
  · have hacc : acceptedBy (pinsNow s) = some (pinsNow s).cmd := by simp [acceptedBy, hr, hv]
    have hmid : midEdge s = enqueue (execWord (pinsNow s).cmd) (beginEdge s) := by rw [midEdge, hacc]; rfl
    rw [hstep, nextState_of_not_rst hr, hmid]
  · have hacc : acceptedBy (pinsNow s) = none := by simp [acceptedBy, hv]
    have hmid : midEdge s = beginEdge s := by rw [midEdge, hacc]; simp [beginEdge]
    rw [hstep, nextState_of_not_rst hr, hmid]

/-- A run of the machine is never cut short. -/
theorem run_eq_iterate (n : Nat) (s : State) : Sys2Proof.core.run n s = .next (nextState^[n] s) := by
  induction n generalizing s with
  | zero => rfl
  | succ n ih =>
    have hstep : Sys2Proof.core.step s = .next (nextState s) := step_eq_nextState s
    simp only [Host.Core.run, hstep, Function.iterate_succ_apply]
    exact ih (nextState s)

@[simp] theorem nextState_latency (s : State) : (nextState s).latency = s.latency := by
  unfold nextState
  split
  · rfl
  · exact endEdge_latency _

@[simp] theorem nextState_inputs (s : State) : (nextState s).inputs = s.inputs.tail := by
  unfold nextState
  split
  · rfl
  · exact endEdge_inputs _

/-- The end of an edge: the oldest response is due, is shown and read, or nothing happens. -/
theorem endEdge_cases (s : State) :
    (∃ r rest, s.inflight = { wait := 0, rsp := r } :: rest ∧
      endEdge s = { s with inflight := rest, out := some r, seen := s.seen ++ [r] }) ∨
    ((∀ r rest, s.inflight ≠ { wait := 0, rsp := r } :: rest) ∧ endEdge s = s) := by
  by_cases h : ∃ r rest, s.inflight = { wait := 0, rsp := r } :: rest
  · obtain ⟨r, rest, h⟩ := h
    exact .inl ⟨r, rest, h, endEdge_due h⟩
  · have hne : ∀ r rest, s.inflight ≠ { wait := 0, rsp := r } :: rest := fun r rest e => h ⟨r, rest, e⟩
    exact .inr ⟨hne, endEdge_none hne⟩

/-- Settles O18: the next state is `nextState`. -/
theorem everyStepGivesANextState : Obligations.EveryStepGivesANextState := fun s => ⟨nextState s, step_eq_nextState s⟩

/-- R24: a step with a valid command that decodes. -/
theorem step_of_decode {s : State} {i : Instr} (hr : (pinsNow s).rst = false) (hv : (pinsNow s).cmdValid = true)
    (hd : decode (pinsNow s).cmd = .ok i) : step s = afterExec (exec i (beginEdge s)) := by
  rw [step, hr, hv, acceptCommand, hd]
  rfl

/-- Settles O16: the pins hold the decoded word, from the list of inputs or put there by `withFetchWord`. -/
theorem stepRunsTheDecodedCommand : Obligations.StepRunsTheDecodedCommand := by
  refine ⟨fun s i => step_of_decode, fun s w i hd => ⟨rfl, ?fetched⟩⟩
  case fetched =>
    exact step_of_decode rfl rfl (by rwa [withFetchWord_pins, cmd_ofNat_toNat_mod])

/-- Settles O17: each clause is one of the cases of a step, or one of the edge's operations written out. -/
theorem edgesAroundACommand : Obligations.EdgesAroundACommand := by
  refine ⟨fun s hr => ?reset, fun s hr hv => ?idle, fun s => rfl, fun s r rest => endEdge_due, fun s => endEdge_none⟩
  case reset => rw [step_eq_nextState, nextState_of_rst hr]; rfl
  case idle => rw [step, hr, hv]; rfl

/-- Settles O25: the reset state is written out. -/
theorem resetLeavesNothingInFlight : Obligations.ResetLeavesNothingInFlight :=
  ⟨fun n => ⟨resetAt_latency n, resetAt_inflight n, resetAt_out n, rfl⟩, rfl⟩

end Sys2Proof.Machine
end

section
/-! PROOFS. The in-flight queue stays in order, and every response is one a conforming block gives (R24, R26, R107). -/

namespace Sys2Proof.Machine

/-- R26: the order of the queue and the bounds of its waits, entry by entry. -/
theorem queueOrdered_iff (latency : Nat) (q : List InFlight) :
    queueOrdered latency q = true ↔
      q.Pairwise (fun e f => e.wait < f.wait) ∧ ∀ e ∈ q, 1 ≤ e.wait ∧ e.wait ≤ latency := by
  induction q with
  | nil => simp [queueOrdered]
  | cons e q ih =>
    simp only [queueOrdered, Bool.and_eq_true, decide_eq_true_eq, List.all_eq_true, ih, List.pairwise_cons, List.forall_mem_cons]
    tauto

/-- The queue within an edge: in order, each response due at this edge or within `latency` edges. -/
def MidOrdered (latency : Nat) (q : List InFlight) : Prop :=
  q.Pairwise (fun e f => e.wait < f.wait) ∧ ∀ e ∈ q, e.wait ≤ latency

theorem mem_midEdge_inflight {s : State} {e : InFlight} :
    e ∈ (midEdge s).inflight ↔
      (∃ f ∈ s.inflight, f.tick = e) ∨ ∃ w, acceptedBy (pinsNow s) = some w ∧ { wait := s.latency, rsp := execWord w } = e := by
  simp [midEdge_inflight]

/-- Bringing an ordered queue one edge nearer and adding a response due last keeps the order. -/
theorem midOrdered_midEdge {s : State} (h : queueOrdered s.latency s.inflight = true) :
    MidOrdered s.latency (midEdge s).inflight := by
  obtain ⟨hsorted, hwait⟩ := (queueOrdered_iff _ _).1 h
  constructor
  · rw [midEdge_inflight, List.pairwise_append, List.pairwise_map]
    refine ⟨hsorted.imp_of_mem fun he _ hlt => ?_, ?_, ?_⟩
    · have := hwait _ he
      simp only [tick_wait]
      omega
    · cases acceptedBy (pinsNow s) <;> simp
    · intro e he f hf
      obtain ⟨e', he', rfl⟩ := List.mem_map.1 he
      obtain ⟨w, -, rfl⟩ := List.mem_map.1 hf
      have := hwait e' he'
      simp only [tick_wait]
      omega
  · intro e he
    obtain ⟨f, hf, rfl⟩ | ⟨w, -, rfl⟩ := mem_midEdge_inflight.1 he
    · have := hwait f hf
      simp only [tick_wait]
      omega
    · exact le_rfl

/-- Within an edge only the oldest response can be due, so what the end of the edge leaves is due later. -/
theorem mem_endEdge_inflight {s : State} (h : MidOrdered s.latency s.inflight) {e : InFlight} :
    e ∈ (endEdge s).inflight ↔ e ∈ s.inflight ∧ 1 ≤ e.wait := by
  obtain ⟨hsorted, -⟩ := h
  obtain ⟨r, rest, hq, hend⟩ | ⟨hne, hend⟩ := endEdge_cases s
  · rw [hq, List.pairwise_cons] at hsorted
    rw [hend, hq]
    simp only [List.mem_cons]
    constructor
    · exact fun he => ⟨.inr he, hsorted.1 e he⟩
    · rintro ⟨rfl | he, hpos⟩
      · exact absurd hpos (Nat.not_succ_le_zero 0)
      · exact he
  · rw [hend]
    refine ⟨fun he => ⟨he, ?_⟩, And.left⟩
    match hq : s.inflight with
    | [] => simp [hq] at he
    | { wait := 0, rsp := r } :: rest => exact absurd hq (hne r rest)
    | { wait := n + 1, rsp := r } :: rest =>
      rw [hq, List.pairwise_cons] at hsorted
      rw [hq, List.mem_cons] at he
      obtain rfl | he := he
      · exact Nat.le_add_left 1 n
      · exact Nat.one_le_of_lt (hsorted.1 e he)

/-- The end of an edge shows the response that is due, if one is. -/
theorem endEdge_out_eq_some {s : State} (h : MidOrdered s.latency s.inflight) (hout : s.out = none) {r : Rsp} :
    (endEdge s).out = some r ↔ { wait := 0, rsp := r } ∈ s.inflight := by
  obtain ⟨r', rest, hq, hend⟩ | ⟨-, hend⟩ := endEdge_cases s
  · obtain ⟨hsorted, -⟩ := h
    rw [hq, List.pairwise_cons] at hsorted
    have hrest : { wait := 0, rsp := r } ∉ rest := fun hmem => Nat.not_lt_zero _ (hsorted.1 _ hmem)
    rw [hend, hq]
    simp [hrest, eq_comm]
  · have hnot : { wait := 0, rsp := r } ∉ s.inflight := fun he => by
      obtain ⟨-, hpos⟩ := (mem_endEdge_inflight h).1 (hend.symm ▸ he)
      exact Nat.not_succ_le_zero 0 hpos
    rw [hend, hout]
    simp [hnot]

/-- R24, R26: every edge keeps the queue in order. -/
theorem queueOrdered_nextState {s : State} (h : queueOrdered s.latency s.inflight = true) :
    queueOrdered (nextState s).latency (nextState s).inflight = true := by
  cases hr : (pinsNow s).rst
  case true => simp [nextState_of_rst hr, queueOrdered]
  case false =>
    have hmid := midOrdered_midEdge h
    have ⟨hsorted, hle⟩ := hmid
    rw [nextState_latency, nextState_of_not_rst hr, queueOrdered_iff]
    refine ⟨?_, fun e he => ?_⟩
    · obtain ⟨r, rest, hq, hend⟩ | ⟨-, hend⟩ := endEdge_cases (midEdge s)
      · rw [hend]
        exact (hq ▸ hsorted).of_cons
      · rwa [hend]
    · obtain ⟨he, hpos⟩ := (mem_endEdge_inflight hmid).1 he
      exact ⟨hpos, hle e he⟩

/-- The end of an edge shows and records only a response that was in flight. -/
theorem all_endEdge {p : Rsp → Bool} {s : State} (hq : ∀ e ∈ s.inflight, p e.rsp = true) (hout : s.out.all p = true)
    (hseen : s.seen.all p = true) :
    (∀ e ∈ (endEdge s).inflight, p e.rsp = true) ∧ (endEdge s).out.all p = true ∧ (endEdge s).seen.all p = true := by
  obtain ⟨r, rest, hcons, hend⟩ | ⟨-, hend⟩ := endEdge_cases s
  · rw [hcons, List.forall_mem_cons] at hq
    obtain ⟨hr, hrest⟩ := hq
    rw [hend]
    exact ⟨hrest, hr, by rw [List.all_append, hseen]; simpa using hr⟩
  · rw [hend]
    exact ⟨hq, hout, hseen⟩

/-- Settles O19: an edge keeps the queue in order, accepts commands whose responses conform, and else only moves responses. -/
theorem stepKeepsTheInvariant : Obligations.StepKeepsTheInvariant := by
  intro s t ⟨hordered, hinflight, hout, hseen⟩ hstep
  cases (step_eq_nextState s).symm.trans hstep
  refine ⟨queueOrdered_nextState hordered, ?_⟩
  cases hr : (pinsNow s).rst
  case true =>
    rw [nextState_of_rst hr]
    exact ⟨rfl, rfl, hseen⟩
  case false =>
    have hmid : ∀ e ∈ (midEdge s).inflight, conformingRsp e.rsp = true := fun e he => by
      obtain ⟨f, hf, rfl⟩ | ⟨w, -, rfl⟩ := mem_midEdge_inflight.1 he
      · exact List.all_eq_true.1 hinflight f hf
      · exact conformingRsp_execWord w
    obtain ⟨hq', hout', hseen'⟩ := all_endEdge hmid (by rfl) hseen
    rw [nextState_of_not_rst hr]
    exact ⟨List.all_eq_true.2 hq', hout', hseen'⟩

/-- Settles O20: a reset state holds no response at all. -/
theorem resetHasTheInvariant : Obligations.ResetHasTheInvariant := by
  have hreset : ∀ n, (State.resetAt n).Inv := fun n => ⟨rfl, rfl, rfl, rfl⟩
  exact ⟨hreset Config.suggestedLatency, hreset⟩

/-- Settles O21: the waits of the queue are distinct numbers from 1 to `latency`. -/
theorem queueHoldsAtMostLatency : Obligations.QueueHoldsAtMostLatency := by
  intro s hinv
  obtain ⟨hordered, -⟩ := hinv
  obtain ⟨hsorted, hwait⟩ := (queueOrdered_iff _ _).1 hordered
  have hnodup : (s.inflight.map InFlight.wait).Nodup := List.pairwise_map.2 (hsorted.imp Nat.ne_of_lt)
  have hsubset : (s.inflight.map InFlight.wait).toFinset ⊆ Finset.Icc 1 s.latency := fun n hn => by
    obtain ⟨e, he, rfl⟩ := List.mem_map.1 (List.mem_toFinset.1 hn)
    exact Finset.mem_Icc.2 (hwait e he)
  have hcard := Finset.card_le_card hsubset
  rwa [List.toFinset_card_of_nodup hnodup, List.length_map, Nat.card_Icc, Nat.add_sub_cancel] at hcard

end Sys2Proof.Machine
end

section
/-! PROOFS. What the ports show at every edge, and that commands are answered in order (R24, R119, R130). -/

namespace Sys2Proof.Machine

theorem pinsNow_eq_pinsAt (s : State) : pinsNow s = pinsAt s.inputs 0 := by
  cases h : s.inputs <;> simp [pinsNow, pinsAt, h]

@[simp] theorem pinsAt_tail (ins : List EdgeInput) (k : Nat) : pinsAt ins.tail k = pinsAt ins (k + 1) := by
  cases ins <;> simp [pinsAt]

/-- A response `n` edges away within an edge: it was one edge further away before, or its command is accepted at this edge. -/
theorem mem_midEdge_iff {s : State} (h : queueOrdered s.latency s.inflight = true) {n : Nat} {r : Rsp} :
    { wait := n, rsp := r } ∈ (midEdge s).inflight ↔
      { wait := n + 1, rsp := r } ∈ s.inflight ∨ (n = s.latency ∧ (acceptedBy (pinsNow s)).map execWord = some r) := by
  obtain ⟨-, hwait⟩ := (queueOrdered_iff _ _).1 h
  have htick : (∃ f ∈ s.inflight, f.tick = { wait := n, rsp := r }) ↔ { wait := n + 1, rsp := r } ∈ s.inflight := by
    constructor
    · rintro ⟨⟨m, r'⟩, hf, htick⟩
      have hpos : 1 ≤ m := (hwait _ hf).1
      simp only [InFlight.tick, InFlight.mk.injEq] at htick
      obtain ⟨hm, rfl⟩ := htick
      rwa [← hm, Nat.sub_add_cancel hpos]
    · exact fun hf => ⟨_, hf, rfl⟩
  rw [mem_midEdge_inflight, htick]
  simp only [InFlight.mk.injEq, Option.map_eq_some_iff]
  tauto

/-- R24, R119: the response an edge shows was due at it, or answers the command accepted at it with `LATENCY` 0. -/
theorem nextState_out_eq_some {s : State} (h : queueOrdered s.latency s.inflight = true) {r : Rsp} :
    (nextState s).out = some r ↔ (pinsNow s).rst = false ∧
      ({ wait := 1, rsp := r } ∈ s.inflight ∨ (0 = s.latency ∧ (acceptedBy (pinsNow s)).map execWord = some r)) := by
  cases hr : (pinsNow s).rst
  case true => simp [nextState_of_rst hr]
  case false =>
    rw [nextState_of_not_rst hr, endEdge_out_eq_some (midOrdered_midEdge h) rfl, mem_midEdge_iff h]
    simp

/-- R24, R119: a response is in flight after an edge when it was one edge further away before, or when it answers the command
accepted at the edge. -/
theorem mem_nextState_inflight {s : State} (h : queueOrdered s.latency s.inflight = true) {n : Nat} {r : Rsp} :
    { wait := n + 1, rsp := r } ∈ (nextState s).inflight ↔ (pinsNow s).rst = false ∧
      ({ wait := n + 1 + 1, rsp := r } ∈ s.inflight ∨ (n + 1 = s.latency ∧ (acceptedBy (pinsNow s)).map execWord = some r)) := by
  cases hr : (pinsNow s).rst
  case true => simp [nextState_of_rst hr]
  case false =>
    rw [nextState_of_not_rst hr, mem_endEdge_inflight (midOrdered_midEdge h), mem_midEdge_iff h]
    simp

theorem resetWithin_tail (ins : List EdgeInput) (t n : Nat) : resetWithin ins.tail t n = resetWithin ins (t + 1) n := by
  simp [resetWithin, Nat.add_right_comm]

theorem resetWithin_zero (ins : List EdgeInput) : resetWithin ins 0 0 = (pinsAt ins 0).rst := by simp [resetWithin]

theorem resetWithin_succ (ins : List EdgeInput) (n : Nat) :
    resetWithin ins 0 (n + 1) = ((pinsAt ins 0).rst || resetWithin ins.tail 0 n) := by
  rw [resetWithin_tail, resetWithin, List.range_succ_eq_map, List.any_cons, List.any_map]
  simp [resetWithin, Function.comp_def, Nat.add_comm]

/-- R24, R119: what edge `t` shows, as the edge at which its command was accepted. -/
theorem outputAt_eq_some {latency : Nat} {ins : List EdgeInput} {t : Nat} {r : Rsp} :
    outputAt latency ins t = some r ↔
      ∃ k, k + latency = t ∧ resetWithin ins k latency = false ∧ (acceptedBy (pinsAt ins k)).map execWord = some r := by
  constructor
  · intro h
    unfold outputAt at h
    split at h
    case isFalse => cases h
    next hle =>
    split at h
    case h_2 => cases h
    next w hw =>
    split at h
    case isTrue => cases h
    next hnot =>
    exact ⟨t - latency, Nat.sub_add_cancel hle, by simpa using hnot, by rw [hw]; simpa using h⟩
  · rintro ⟨k, rfl, hnot, hmap⟩
    obtain ⟨w, hw, rfl⟩ := Option.map_eq_some_iff.1 hmap
    simp [outputAt, hw, hnot]

/-- The first edge shows a response only when `LATENCY` is 0. -/
theorem outputAt_zero {latency : Nat} {ins : List EdgeInput} {r : Rsp} :
    outputAt latency ins 0 = some r ↔
      latency = 0 ∧ (pinsAt ins 0).rst = false ∧ (acceptedBy (pinsAt ins 0)).map execWord = some r := by
  rw [outputAt_eq_some]
  constructor
  · rintro ⟨k, hk, hreset, hw⟩
    obtain ⟨rfl, rfl⟩ := Nat.add_eq_zero_iff.1 hk
    exact ⟨rfl, resetWithin_zero ins ▸ hreset, hw⟩
  · rintro ⟨rfl, hreset, hw⟩
    exact ⟨0, rfl, (resetWithin_zero ins).trans hreset, hw⟩

/-- A later edge shows the answer to a command of the first edge, or what it shows when the first edge is left out. -/
theorem outputAt_succ {latency : Nat} {ins : List EdgeInput} {t : Nat} {r : Rsp} :
    outputAt latency ins (t + 1) = some r ↔
      (t + 1 = latency ∧ resetWithin ins 0 (t + 1) = false ∧ (acceptedBy (pinsAt ins 0)).map execWord = some r) ∨
      outputAt latency ins.tail t = some r := by
  rw [outputAt_eq_some, outputAt_eq_some, ← Nat.or_exists_add_one]
  refine or_congr ?_ (exists_congr fun k => ?_)
  · rw [Nat.zero_add, eq_comm]
    exact and_congr_right fun h => by rw [h]
  · rw [pinsAt_tail, resetWithin_tail, Nat.add_right_comm, Nat.add_right_cancel_iff]

/-- R24, R119: at edge `t` the port shows the response that was due then, or the answer to the command accepted `latency` edges
before; a reset in between drops either. -/
theorem iterate_nextState_out_eq_some {t : Nat} {s : State} (h : queueOrdered s.latency s.inflight = true) {r : Rsp} :
    (nextState^[t + 1] s).out = some r ↔
      (resetWithin s.inputs 0 t = false ∧ { wait := t + 1, rsp := r } ∈ s.inflight) ∨
      outputAt s.latency s.inputs t = some r := by
  induction t generalizing s with
  | zero =>
    rw [Function.iterate_one, nextState_out_eq_some h, outputAt_zero, resetWithin_zero, pinsNow_eq_pinsAt, and_or_left,
      eq_comm (a := 0)]
    tauto
  | succ t ih =>
    rw [Function.iterate_succ_apply, ih (queueOrdered_nextState h), mem_nextState_inflight h, outputAt_succ, nextState_latency,
      nextState_inputs, pinsNow_eq_pinsAt, resetWithin_succ, Bool.or_eq_false_iff]
    tauto

/-- Settles O22: with nothing in flight, only commands of the coming edges are answered. -/
theorem portsFollowAcceptedCommands : Obligations.PortsFollowAcceptedCommands := by
  intro s t hempty
  have hout : (nextState^[t + 1] s).out = outputAt s.latency s.inputs t := Option.ext fun r => by
    rw [iterate_nextState_out_eq_some (by rw [hempty]; rfl), hempty]
    simp
  refine ⟨_, run_eq_iterate (t + 1) s, hout, congrArg Option.isSome hout, fun r hr => ?_⟩
  rw [State.rspPort, hout, hr]

/-- Settles O24: what a port shows is said by the pins of one edge and by the resets. -/
theorem responseDependsOnItsOwnCommandOnly : Obligations.ResponseDependsOnItsOwnCommandOnly := by
  intro s s' t hempty hempty' hlatency hrst hpins
  obtain ⟨u, hu, hout, -⟩ := portsFollowAcceptedCommands s (t + s.latency) hempty
  obtain ⟨u', hu', hout', -⟩ := portsFollowAcceptedCommands s' (t + s.latency) hempty'
  refine ⟨u, u', hu, hu', ?_⟩
  rw [hout, hout', ← hlatency]
  simp [outputAt, resetWithin, hrst, hpins]

/-- What the host drives at every edge of its list or presents past the list's end, it drives at the coming edge. -/
theorem pinsNow_of_forall {P : EdgeInput → Prop} {s : State} (h : ∀ p ∈ s.inputs, P p) (hidle : P EdgeInput.idle) :
    P (pinsNow s) := by
  unfold pinsNow
  cases hi : s.inputs with
  | nil => exact hidle
  | cons p ps => exact h p (by simp [hi])

/-- With nothing in flight and no command accepted, an edge shows and reads nothing. -/
theorem nextState_of_quiet {s : State} (hempty : s.inflight = []) (hnone : acceptedBy (pinsNow s) = none) :
    (nextState s).out = none ∧ (nextState s).inflight = [] ∧ (nextState s).seen = s.seen := by
  cases hr : (pinsNow s).rst
  case true => exact nextState_of_rst hr ▸ ⟨rfl, rfl, rfl⟩
  case false =>
    have hmid : (midEdge s).inflight = [] := by rw [midEdge_inflight, hempty, hnone]; rfl
    rw [nextState_of_not_rst hr, endEdge_none (by simp [hmid])]
    exact ⟨rfl, hmid, rfl⟩

theorem iterate_nextState_of_quiet {s : State} (hempty : s.inflight = []) (hout : s.out = none)
    (hnone : ∀ p ∈ s.inputs, acceptedBy p = none) (n : Nat) :
    (nextState^[n] s).out = none ∧ (nextState^[n] s).inflight = [] ∧ (nextState^[n] s).seen = s.seen := by
  induction n generalizing s with
  | zero => exact ⟨hout, hempty, rfl⟩
  | succ n ih =>
    obtain ⟨hout', hempty', hseen'⟩ := nextState_of_quiet hempty (pinsNow_of_forall hnone rfl)
    have htail : ∀ p ∈ (nextState s).inputs, acceptedBy p = none := fun p hp =>
      hnone p (List.mem_of_mem_tail (nextState_inputs s ▸ hp))
    rw [Function.iterate_succ_apply, ← hseen']
    exact ih hempty' hout' htail

/-- Settles O27: the reset edge leaves a quiet state, and it stays quiet. -/
theorem resetDropsCommandsForGood : Obligations.ResetDropsCommandsForGood := by
  intro s n hrst hnone
  refine ⟨_, run_eq_iterate (n + 1) s, ?_⟩
  rw [Function.iterate_succ_apply, nextState_of_rst hrst]
  exact iterate_nextState_of_quiet (resetEdge_inflight s) (resetEdge_out s) hnone n

/-- The responses read, those in flight, and those to the commands still to be accepted if no reset comes: every edge without a
reset keeps this list (`ledger_nextState`). -/
def ledger (s : State) : List Rsp := s.seen ++ s.inflight.map InFlight.rsp ++ runCommands (s.inputs.filterMap acceptedBy)

theorem endEdge_seen_append_inflight (s : State) :
    (endEdge s).seen ++ (endEdge s).inflight.map InFlight.rsp = s.seen ++ s.inflight.map InFlight.rsp := by
  obtain ⟨r, rest, hq, hend⟩ | ⟨-, hend⟩ := endEdge_cases s
  · rw [hend, hq]
    simp
  · rw [hend]

theorem filterMap_acceptedBy_inputs (s : State) :
    s.inputs.filterMap acceptedBy = (acceptedBy (pinsNow s)).toList ++ s.inputs.tail.filterMap acceptedBy := by
  cases h : s.inputs with
  | nil => simp [pinsNow, h, acceptedBy, EdgeInput.idle]
  | cons p ps =>
    have hnow : pinsNow s = p := by rw [pinsNow, h]; rfl
    rw [hnow, List.filterMap_cons]
    cases acceptedBy p <;> rfl

theorem ledger_nextState {s : State} (h : (pinsNow s).rst = false) : ledger (nextState s) = ledger s := by
  have hmid : (midEdge s).inflight.map InFlight.rsp =
      s.inflight.map InFlight.rsp ++ runCommands (acceptedBy (pinsNow s)).toList := by
    simp [midEdge_inflight, runCommands, Function.comp_def]
  unfold ledger
  rw [nextState_inputs, nextState_of_not_rst h, endEdge_seen_append_inflight, hmid, midEdge_seen, filterMap_acceptedBy_inputs s]
  simp [runCommands]

theorem ledger_iterate_nextState {s : State} (h : ∀ p ∈ s.inputs, p.rst = false) (n : Nat) :
    ledger (nextState^[n] s) = ledger s := by
  induction n generalizing s with
  | zero => rfl
  | succ n ih =>
    have htail : ∀ p ∈ (nextState s).inputs, p.rst = false := fun p hp => h p (List.mem_of_mem_tail (nextState_inputs s ▸ hp))
    rw [Function.iterate_succ_apply, ih htail, ledger_nextState (pinsNow_of_forall h rfl)]

theorem iterate_nextState_inputs (n : Nat) (s : State) : (nextState^[n] s).inputs = s.inputs.drop n := by
  induction n generalizing s with
  | zero => rfl
  | succ n ih => rw [Function.iterate_succ_apply, ih, nextState_inputs, List.drop_tail]

theorem iterate_nextState_latency (n : Nat) (s : State) : (nextState^[n] s).latency = s.latency := by
  induction n generalizing s with
  | zero => rfl
  | succ n ih => rw [Function.iterate_succ_apply, ih, nextState_latency]

theorem queueOrdered_iterate_nextState {s : State} (h : queueOrdered s.latency s.inflight = true) (n : Nat) :
    queueOrdered (nextState^[n] s).latency (nextState^[n] s).inflight = true := by
  induction n generalizing s with
  | zero => exact h
  | succ n ih => exact ih (queueOrdered_nextState h)

/-- With no inputs left, the queue is empty after as many edges as its last response is away. -/
theorem iterate_nextState_inflight_of_no_inputs {d : Nat} {s : State} (h : queueOrdered s.latency s.inflight = true)
    (hinputs : s.inputs = []) (hd : ∀ e ∈ s.inflight, e.wait ≤ d) : (nextState^[d] s).inflight = [] := by
  induction d generalizing s with
  | zero =>
    obtain ⟨-, hwait⟩ := (queueOrdered_iff _ _).1 h
    refine List.eq_nil_iff_forall_not_mem.2 fun e he => ?_
    have := hwait e he
    have := hd e he
    omega
  | succ d ih =>
    refine ih (queueOrdered_nextState h) (by rw [nextState_inputs, hinputs]; rfl) fun ⟨n, r⟩ he => ?_
    have hnone : acceptedBy (pinsNow s) = none := by rw [pinsNow, hinputs]; rfl
    match n with
    | 0 => exact Nat.zero_le d
    | n + 1 =>
      obtain ⟨-, hmem | ⟨-, hw⟩⟩ := (mem_nextState_inflight h).1 he
      · exact Nat.le_of_succ_le_succ (hd _ hmem)
      · simp [hnone] at hw

/-- Settles O23: the edges keep the ledger, and at the end it holds nothing but the responses read. -/
theorem commandsAreAnsweredInOrder : Obligations.CommandsAreAnsweredInOrder := by
  intro s hempty hrst
  have hordered := queueOrdered_iterate_nextState (s := s) (by rw [hempty]; rfl) s.inputs.length
  have hinputs : (nextState^[s.inputs.length] s).inputs = [] := by rw [iterate_nextState_inputs, List.drop_length]
  obtain ⟨-, hwait⟩ := (queueOrdered_iff _ _).1 hordered
  rw [iterate_nextState_latency] at hwait
  have hend : (nextState^[s.inputs.length + s.latency] s).inflight = [] := by
    rw [Nat.add_comm, Function.iterate_add_apply]
    exact iterate_nextState_inflight_of_no_inputs hordered hinputs fun e he => (hwait e he).2
  refine ⟨_, run_eq_iterate _ s, hend, ?_⟩
  have hledger := ledger_iterate_nextState hrst (s.inputs.length + s.latency)
  unfold ledger at hledger
  rw [hend, hempty, iterate_nextState_inputs, List.drop_eq_nil_of_le (Nat.le_add_right _ _)] at hledger
  simpa [runCommands] using hledger

end Sys2Proof.Machine
end

section
/-! PROOFS. The laws of the box operations: wiring, inverses and orders; the tables they are read from (R15 to R19, R59,
R60, R68). -/

namespace Sys2Proof.Machine

open Sys2Proof.Spec

/-- R9: numeric bit `j` is the character `a{11-j}`, here of an image whose characters are moved by `σ`. -/
theorem getLsbD_of_charAt {a y : Block} {σ : Fin 12 → Fin 12} (h : ∀ t, charAt y t = charAt a (σ t)) (j : Fin 12) :
    y.getLsbD j = a.getLsbD (σ j.rev).rev := by
  rw [← charAt_rev, h, ← charAt_rev, Fin.rev_rev]

/-- R59: both operations only move characters, so they are linear over exclusive-or. -/
theorem permBlock_xor (a b : Block) : permBlock (a ^^^ b) = permBlock a ^^^ permBlock b :=
  block_ext fun t => by
    change charAt (permBlock (xor12 a b)) t = charAt (xor12 (permBlock a) (permBlock b)) t
    simp only [charAt_permBlock, charAt_xor12]

theorem permiBlock_xor (a b : Block) : permiBlock (a ^^^ b) = permiBlock a ^^^ permiBlock b :=
  block_ext fun t => by
    change charAt (permiBlock (xor12 a b)) t = charAt (xor12 (permiBlock a) (permiBlock b)) t
    simp only [charAt_permiBlock, charAt_xor12]

/-- Settles O32: the wiring is the rows `P` and `PI` counted from the other end; the one-hot images are evaluated. -/
theorem pboxIsTheWiringTable : Obligations.PboxIsTheWiringTable := by
  have hforward : ∀ j : Fin 12, ((piMap j.rev).rev : Nat) = (wiring j).1 := by decide
  have hinverse : ∀ j : Fin 12, ((pMap j.rev).rev : Nat) = (wiring j).2 := by decide
  refine ⟨fun a j => ⟨?_, ?_⟩, by decide, fun a b => ⟨permBlock_xor a b, permiBlock_xor a b⟩⟩
  · rw [getLsbD_of_charAt (charAt_permBlock a), hforward]
  · rw [getLsbD_of_charAt (charAt_permiBlock a), hinverse]

theorem permiBlock_permBlock (a : Block) : permiBlock (permBlock a) = a :=
  block_ext fun t => by rw [charAt_permiBlock, charAt_permBlock_pMap]

theorem permBlock_permiBlock (a : Block) : permBlock (permiBlock a) = a :=
  block_ext fun t => by rw [charAt_permBlock, charAt_permiBlock_piMap]

/-- Settles O34: each operation takes a character back to where the other found it. -/
theorem pboxInverseLaw : Obligations.PboxInverseLaw := fun a => ⟨permiBlock_permBlock a, permBlock_permiBlock a⟩

/-- R59: `n` times `PERM` moves characters by `n` steps of the row `PI`. -/
theorem charAt_iterate_permBlock (n : Nat) (a : Block) (t : Fin 12) : charAt (permBlock^[n] a) t = charAt a (piMap^[n] t) := by
  induction n generalizing t with
  | zero => rfl
  | succ n ih => rw [Function.iterate_succ_apply', charAt_permBlock, ih, Function.iterate_succ_apply]

/-- Settles O33: the row `PI` has order 28; a block with one character set shows each index that a smaller count moves. -/
theorem permHasOrderTwentyEight : Obligations.PermHasOrderTwentyEight := by
  have horder : ∀ t, piMap^[28] t = t := by decide
  have hmoved : ∀ n : Fin 28, 0 < n → ∃ t, piMap^[n] t ≠ t := by decide
  refine ⟨fun a => block_ext fun t => ?_, fun n hpos hlt => ?_⟩
  · rw [charAt_iterate_permBlock, horder]
  · obtain ⟨t, ht⟩ := hmoved ⟨n, hlt⟩ (Fin.mk_lt_mk.2 hpos)
    refine ⟨setChar 0#12 (piMap^[n] t) true, fun hfixed => ?_⟩
    have hset := charAt_iterate_permBlock n (setChar 0#12 (piMap^[n] t) true) t
    rw [hfixed, charAt_setChar, charAt_setChar, if_pos rfl, if_neg (Ne.symm ht)] at hset
    simp at hset

theorem siMap_sMap (g : Group) : siMap (sMap g) = g := by decide +revert

theorem sMap_siMap (g : Group) : sMap (siMap g) = g := by decide +revert

/-- R65: putting the groups through one map and then another. -/
theorem mapGroups_mapGroups (f g : Group → Group) (a : Block) : mapGroups f (mapGroups g a) = mapGroups (f ∘ g) a :=
  mapGroups_eq_of_groupAt fun k => by simp

theorem mapGroups_of_forall {f : Group → Group} (h : ∀ g, f g = g) (a : Block) : mapGroups f a = a :=
  mapGroups_eq_of_groupAt fun _ => (h _).symm

theorem mapGroups_siMap_sMap (a : Block) : mapGroups siMap (mapGroups sMap a) = a := by
  rw [mapGroups_mapGroups, mapGroups_of_forall (f := siMap ∘ sMap) siMap_sMap]

theorem mapGroups_sMap_siMap (a : Block) : mapGroups sMap (mapGroups siMap a) = a := by
  rw [mapGroups_mapGroups, mapGroups_of_forall (f := sMap ∘ siMap) sMap_siMap]

theorem iterate_mapGroups (f : Group → Group) (n : Nat) (a : Block) : (mapGroups f)^[n] a = mapGroups f^[n] a := by
  induction n with
  | zero => exact (mapGroups_of_forall (fun _ => rfl) a).symm
  | succ n ih => rw [Function.iterate_succ_apply', ih, mapGroups_mapGroups, Function.iterate_succ']

/-- Settles O37: the rows `S` and `SI` undo each other, and `S` is one cycle of length 8, so no group returns sooner. -/
theorem sboxInverseLaw : Obligations.SboxInverseLaw := by
  have horder : ∀ g, sMap^[8] g = g := by decide
  have hmoved : ∀ n : Fin 8, 0 < n → ∀ g, sMap^[n] g ≠ g := by decide
  refine ⟨fun a y h => ?_, fun a y h => ?_, fun g => ⟨siMap_sMap g, sMap_siMap g⟩, fun f hf => ?_⟩
  · cases (subBlock_eq_mapGroups a).symm.trans h
    rw [subiBlock_eq_mapGroups, mapGroups_siMap_sMap]
  · cases (subiBlock_eq_mapGroups a).symm.trans h
    rw [subBlock_eq_mapGroups, mapGroups_sMap_siMap]
  · have hfun : f = mapGroups sMap := funext fun a => Except.ok.inj ((hf a).symm.trans (subBlock_eq_mapGroups a))
    subst hfun
    refine ⟨fun a => ?_, fun n hpos hlt a hfixed => ?_⟩
    · rw [iterate_mapGroups, mapGroups_of_forall horder]
    · rw [iterate_mapGroups] at hfixed
      have hgroup := congrArg (groupAt · 0) hfixed
      rw [groupAt_mapGroups] at hgroup
      exact hmoved ⟨n, hlt⟩ (Fin.mk_lt_mk.2 hpos) _ hgroup

/-- R19: a table with two keys of one value is no bijection. -/
theorem isBijectionOn_eq_false {α : Type} [DecidableEq α] {dom : List α} {t : List (α × α)} (hdom : dom.Nodup)
    (h : ∃ x y z, (x, z) ∈ t ∧ (y, z) ∈ t ∧ x ≠ y) : isBijectionOn dom t = false := by
  obtain ⟨x, y, z, hx, hy, hne⟩ := h
  refine Bool.eq_false_iff.2 fun hbij => hne ?_
  obtain ⟨-, hvalues⟩ := Bool.and_eq_true_iff.1 hbij
  have hnodup : (t.map Prod.snd).Nodup := (List.isPerm_iff.1 hvalues).nodup_iff.2 hdom
  exact congrArg Prod.fst (List.inj_on_of_nodup_map hnodup hx hy rfl)

/-- Settles O44: the printed rows are evaluated; a map with two keys of one value fails the check at start-up. -/
theorem tablesAreBijections : Obligations.TablesAreBijections := by
  refine ⟨by decide, by decide, fun i => ⟨piMap_pMap i, pMap_piMap i⟩, fun g => ⟨siMap_sMap g, sMap_siMap g⟩, by decide,
    fun p s h => ?_, fun p s h => ?_⟩
  · rw [buildTables, isBijectionOn_eq_false (by decide) h]
    rfl
  · rw [buildTables, isBijectionOn_eq_false (by decide) h, Bool.and_false]
    rfl

end Sys2Proof.Machine
end

section
/-! PROOFS. The laws of the cipher on one block, through the words (R76, R79). -/

namespace Sys2Proof.Machine

open Sys2Proof.Spec

@[simp] theorem rspResult_okRsp (y : Block) : rspResult (okRsp y) = y := rspResult_packRsp 0 y

@[simp] theorem rspStatus_okRsp (y : Block) : rspStatus (okRsp y) = 0#2 := rspStatus_packRsp 0 y

@[simp] theorem xor12_xor12_cancel (a b : Block) : xor12 (xor12 a b) b = a := by
  rw [xor12, xor12, BitVec.xor_assoc, BitVec.xor_self, BitVec.xor_zero]

theorem unroundValue_roundValue (x k : Block) : unroundValue (roundValue x k) k = x := by
  rw [unroundValue, roundValue, mapGroups_siMap_sMap, permiBlock_permBlock, xor12_xor12_cancel]

theorem roundValue_unroundValue (x k : Block) : roundValue (unroundValue x k) k = x := by
  rw [roundValue, unroundValue, xor12_xor12_cancel, permBlock_permiBlock, mapGroups_sMap_siMap]

/-- R74: the block `ENC(a, b, c)`. -/
def encValue (a b c : Block) : Block := roundValue (roundValue a b) (xor12 b c)

/-- R75: the block `DEC(a, b, c)`. -/
def decValue (a b c : Block) : Block := unroundValue (unroundValue a (xor12 b c)) b

@[simp] theorem execWord_encode_enc (a b c : Block) : execWord (encode (.enc a b c)) = okRsp (encValue a b c) :=
  execWord_packCmd_enc a b c

@[simp] theorem execWord_encode_dec (a b c : Block) : execWord (encode (.dec a b c)) = okRsp (decValue a b c) :=
  execWord_packCmd_dec a b c

theorem decValue_encValue (a b c : Block) : decValue (encValue a b c) b c = a := by
  rw [decValue, encValue, unroundValue_roundValue, unroundValue_roundValue]

theorem encValue_decValue (a b c : Block) : encValue (decValue a b c) b c = a := by
  rw [encValue, decValue, roundValue_unroundValue, roundValue_unroundValue]

/-- Settles O41: `DEC` undoes the rounds of `ENC` in the other order, and the other way round. -/
theorem cipherInverseLaw : Obligations.CipherInverseLaw := by
  intro b c
  simp only [execWord_encode_enc, execWord_encode_dec, rspResult_okRsp, decValue_encValue, encValue_decValue, implies_true,
    true_and]
  exact Function.bijective_iff_has_inverse.2
    ⟨fun a => decValue a b c, fun a => decValue_encValue a b c, fun a => encValue_decValue a b c⟩

/-- R79: a round depends on its operands only through their exclusive-or. -/
theorem roundValue_congr {x k x' k' : Block} (h : xor12 x k = xor12 x' k') : roundValue x k = roundValue x' k' := by
  rw [roundValue, h, roundValue]

theorem encValue_congr {a b c a' b' c' : Block} (hab : xor12 a b = xor12 a' b') (hbc : xor12 b c = xor12 b' c') :
    encValue a b c = encValue a' b' c' := by
  rw [encValue, encValue, roundValue_congr hab, hbc]

theorem xor12_xor_xor (a b d : Block) : xor12 (a ^^^ d) (b ^^^ d) = xor12 a b := by
  rw [xor12, BitVec.xor_comm b d, ← BitVec.xor_assoc]
  exact congrArg (· ^^^ b) (xor12_xor12_cancel a d)

/-- Settles O43: `ENC` is rounds of differences, and the last key of `DEC` is added at its end. -/
theorem encDependsOnOperandDifferences : Obligations.EncDependsOnOperandDifferences := by
  intro a b c d
  simp only [execWord_encode_enc, execWord_encode_dec, rspResult_okRsp]
  refine ⟨congrArg okRsp (encValue_congr ?_ ?_), congrArg okRsp (encValue_congr ?_ ?_), ?_⟩
  · exact (xor12_xor_xor a b d).symm
  · exact (xor12_xor_xor b c d).symm
  · exact (xor12_zero _).symm
  · exact BitVec.zero_xor.symm
  · have hkey : xor12 0 (b ^^^ c) = xor12 b c := BitVec.zero_xor
    simp only [decValue, unroundValue, hkey]
    exact congrArg (· ^^^ b) (xor12_zero _).symm

end Sys2Proof.Machine
end

section
/-! PROOFS. Scripts run line by line: compositions, pseudo-instructions and literals (R10, R50, R51, R77). -/

namespace Sys2Proof.Machine

open Sys2Proof.Spec

/-- R50: a name that stands for an earlier line with a result. -/
theorem resolve_name {env : List (LineName × Rsp)} {n : LineName} {b : Block} (h : env.lookup n = some (okRsp b)) :
    resolve env (.name n) = .ok b := by
  rw [resolve, h]
  simp

/-- R50: a line with a new name adds its word and response, and its name to what later lines may use. -/
theorem runLines_op {env : List (LineName × Rsp)} {n : LineName} {m : Mnemonic} {operands : List ScriptOperand} {xs : List Block}
    {i : Instr} {y : Block} {rest : List CommandLine} {rs : List (Cmd × Rsp)} (hxs : operands.mapM (resolve env) = .ok xs)
    (hi : assemble m xs = .ok i) (hy : instrResult i = .ok y) (hn : env.lookup n = none)
    (hrest : runLines ((n, okRsp y) :: env) rest = .ok rs) :
    runLines env (.op (some n) m operands :: rest) = .ok ((encode i, okRsp y) :: rs) := by
  have hrsp : execWord (encode i) = okRsp y := execWord_of_instrResult (decode_encode i) hy
  have hline : lineWord env (.op (some n) m operands) = .ok (encode i, some n) := by
    rw [lineWord, hxs]
    simp only [bind, Except.bind, hi]
    rfl
  have hname : recordName env (some n) (okRsp y) = .ok ((n, okRsp y) :: env) := by
    rw [recordName, hn]
    rfl
  rw [runLines, hline]
  simp only [bind, Except.bind, hrsp, hname, hrest]
  rfl

section Lines

variable {env : List (LineName × Rsp)} {n : LineName} {o o' : ScriptOperand} {a b : Block} {rest : List CommandLine}
  {rs : List (Cmd × Rsp)}

theorem mapM_resolve_one (h : resolve env o = .ok a) : [o].mapM (resolve env) = .ok [a] := by
  rw [List.mapM_cons, h]
  rfl

theorem mapM_resolve_two (h : resolve env o = .ok a) (h' : resolve env o' = .ok b) :
    [o, o'].mapM (resolve env) = .ok [a, b] := by
  rw [List.mapM_cons, h, mapM_resolve_one h']
  rfl

theorem runLines_xor (h : resolve env o = .ok a) (h' : resolve env o' = .ok b) (hn : env.lookup n = none)
    (hrest : runLines ((n, okRsp (xor12 a b)) :: env) rest = .ok rs) :
    runLines env (.op (some n) .xor [o, o'] :: rest) = .ok ((encode (.xor a b), okRsp (xor12 a b)) :: rs) :=
  runLines_op (mapM_resolve_two h h') rfl rfl hn hrest

theorem runLines_perm (h : resolve env o = .ok a) (hn : env.lookup n = none)
    (hrest : runLines ((n, okRsp (permBlock a)) :: env) rest = .ok rs) :
    runLines env (.op (some n) .perm [o] :: rest) = .ok ((encode (.perm a), okRsp (permBlock a)) :: rs) :=
  runLines_op (mapM_resolve_one h) rfl rfl hn hrest

theorem runLines_permi (h : resolve env o = .ok a) (hn : env.lookup n = none)
    (hrest : runLines ((n, okRsp (permiBlock a)) :: env) rest = .ok rs) :
    runLines env (.op (some n) .permi [o] :: rest) = .ok ((encode (.permi a), okRsp (permiBlock a)) :: rs) :=
  runLines_op (mapM_resolve_one h) rfl rfl hn hrest

theorem runLines_sub (h : resolve env o = .ok a) (hn : env.lookup n = none)
    (hrest : runLines ((n, okRsp (mapGroups sMap a)) :: env) rest = .ok rs) :
    runLines env (.op (some n) .sub [o] :: rest) = .ok ((encode (.sub a), okRsp (mapGroups sMap a)) :: rs) :=
  runLines_op (mapM_resolve_one h) rfl (subBlock_eq_mapGroups a) hn hrest

theorem runLines_subi (h : resolve env o = .ok a) (hn : env.lookup n = none)
    (hrest : runLines ((n, okRsp (mapGroups siMap a)) :: env) rest = .ok rs) :
    runLines env (.op (some n) .subi [o] :: rest) = .ok ((encode (.subi a), okRsp (mapGroups siMap a)) :: rs) :=
  runLines_op (mapM_resolve_one h) rfl (subiBlock_eq_mapGroups a) hn hrest

end Lines

/-- Settles O42: each script is run line by line; its last result is the cipher's composition written out. -/
theorem cipherIsItsComposition : Obligations.CipherIsItsComposition := by
  intro a b c
  rw [execWord_encode_enc, execWord_encode_dec]
  constructor
  · exact ⟨_,
      runLines_xor rfl rfl rfl <|
      runLines_perm (resolve_name rfl) rfl <|
      runLines_sub (resolve_name rfl) rfl <|
      runLines_xor rfl rfl rfl <|
      runLines_xor (resolve_name rfl) (resolve_name rfl) rfl <|
      runLines_perm (resolve_name rfl) rfl <|
      runLines_sub (resolve_name rfl) rfl rfl,
      rfl, rfl⟩
  · exact ⟨_,
      runLines_subi rfl rfl <|
      runLines_permi (resolve_name rfl) rfl <|
      runLines_xor rfl rfl rfl <|
      runLines_xor (resolve_name rfl) (resolve_name rfl) rfl <|
      runLines_subi (resolve_name rfl) rfl <|
      runLines_permi (resolve_name rfl) rfl <|
      runLines_xor (resolve_name rfl) rfl rfl rfl,
      rfl, rfl⟩

/-- Settles O59: a pseudo-instruction and its expansion are the same lines, whose names differ; they are run line by line. -/
theorem pseudoInstructionsExpand : Obligations.PseudoInstructionsExpand := by
  intro n x k
  refine ⟨?kmix, ?round, ?unround⟩
  case kmix =>
    have hrun : runScript [.kmix n (.lit x) (.lit k)] = .ok _ := runLines_xor rfl rfl rfl rfl
    exact ⟨_, hrun, hrun, rfl⟩
  case round =>
    have hrun : runScript [.round n (.lit x) (.lit k)] = .ok _ :=
      runLines_xor rfl rfl rfl <|
      runLines_perm (resolve_name List.lookup_cons_self) (by simp [List.lookup_eq_none_iff]) <|
      runLines_sub (resolve_name List.lookup_cons_self) (by simp [List.lookup_eq_none_iff]) rfl
    exact ⟨_, hrun, hrun, by rw [roundBlock_ok]; rfl⟩
  case unround =>
    have hrun : runScript [.unround n (.lit x) (.lit k)] = .ok _ :=
      runLines_subi rfl rfl <|
      runLines_permi (resolve_name List.lookup_cons_self) (by simp [List.lookup_eq_none_iff]) <|
      runLines_xor (resolve_name List.lookup_cons_self) rfl (by simp [List.lookup_eq_none_iff]) rfl
    exact ⟨_, hrun, hrun, by rw [unroundBlock_ok]; rfl⟩

/-- The `n` digits of a number in a base, most significant first; the digits of `hexDigits` and of a binary literal are these
(`mapM_hexValue_hexDigits`, `mapM_binValue_bits`). -/
def digitsOf (base n v : Nat) : List Nat := (List.range n).map fun i => v / base ^ (n - 1 - i) % base

theorem digitsOf_succ (base n v : Nat) : digitsOf base (n + 1) v = digitsOf base n (v / base) ++ [v % base] := by
  rw [digitsOf, List.range_succ, List.map_append, digitsOf]
  congr 1
  · refine List.map_congr_left fun i hi => ?_
    have hexp : n + 1 - 1 - i = (n - 1 - i) + 1 := by have := List.mem_range.1 hi; omega
    rw [hexp, Nat.pow_succ', Nat.div_div_eq_div_mul]
  · simp

/-- R10: reading back `n` digits of a number gives the number, up to `base ^ n`. -/
theorem digitsValue_digitsOf (base n v : Nat) : digitsValue base (digitsOf base n v) = v % base ^ n := by
  induction n generalizing v with
  | zero => simp [digitsOf, digitsValue, Nat.mod_one]
  | succ n ih =>
    have hlast : digitsValue base (digitsOf base (n + 1) v) =
        base * digitsValue base (digitsOf base n (v / base)) + v % base := by
      rw [digitsOf_succ, digitsValue, List.foldl_append]
      rfl
    rw [hlast, ih, Nat.pow_succ', Nat.mod_mul, Nat.add_comm]

/-- A procedure that answers on what each element makes answers on the list of what they make. -/
theorem mapM_map_pure {m : Type → Type} [Monad m] [LawfulMonad m] {α β γ : Type} {f : β → m γ} {g : α → β} {h : α → γ}
    (l : List α) (hl : ∀ x ∈ l, f (g x) = pure (h x)) : (l.map g).mapM f = pure (l.map h) := by
  induction l with
  | nil => rfl
  | cons x l ih =>
    rw [List.map_cons, List.mapM_cons, hl x (by simp), ih fun y hy => hl y (by simp [hy])]
    simp

theorem hexValue_hexDigit {v : Nat} (h : v < 16) : hexValue (hexDigit v) = some v := by
  have hall : ∀ v : Fin 16, hexValue (hexDigit v) = some v.val := by decide
  exact hall ⟨v, h⟩

theorem mapM_hexValue_hexDigits (n v : Nat) : (hexDigits n v).mapM hexValue = some (digitsOf 16 n v) :=
  mapM_map_pure _ fun _ _ => hexValue_hexDigit (Nat.mod_lt _ (by decide))

theorem binValue_bit (b : Bool) : binValue (if b then '1' else '0') = some b.toNat := by cases b <;> rfl

theorem mapM_binValue_bits (a : Block) :
    ((List.finRange 12).map fun i => if charAt a i then '1' else '0').mapM binValue = some (digitsOf 2 12 a.toNat) := by
  have hbit : ∀ i : Fin 12, (charAt a i).toNat = a.toNat / 2 ^ (12 - 1 - i.val) % 2 := fun i => by
    have hi : 12 - 1 - i.val < 12 := by omega
    simp only [charAt, BitVec.getMsbD_eq_getLsbD, i.isLt, decide_true, Bool.true_and]
    rw [← BitVec.testBit_toNat, Nat.toNat_testBit]
  rw [mapM_map_pure (h := fun i : Fin 12 => a.toNat / 2 ^ (12 - 1 - i.val) % 2) _ fun i _ => by rw [binValue_bit, hbit]; rfl]
  rfl

theorem ofNat_digitsValue_toNat {base n : Nat} (a : Block) (h : base ^ n = 2 ^ 12) :
    BitVec.ofNat 12 (digitsValue base (digitsOf base n a.toNat)) = a := by
  rw [digitsValue_digitsOf, h, Nat.mod_eq_of_lt a.isLt, BitVec.ofNat_toNat, BitVec.setWidth_eq]

theorem parseLiteral_hex {ds : List Char} {vs : List Nat} (hlen : ds.length = 3) (h : ds.mapM hexValue = some vs) :
    parseLiteral ('0' :: 'x' :: ds) = some (BitVec.ofNat 12 (digitsValue 16 vs)) := by
  rw [parseLiteral, if_pos hlen, h]
  rfl

theorem parseLiteral_bin {ds : List Char} {vs : List Nat} (hlen : ds.length = 12) (h : ds.mapM binValue = some vs) :
    parseLiteral ('0' :: 'b' :: ds) = some (BitVec.ofNat 12 (digitsValue 2 vs)) := by
  rw [parseLiteral, if_pos hlen, h]
  rfl

/-- Settles O60: each literal's characters are read as the block's digits, whose number is the block's. -/
theorem literalsReadBack : Obligations.LiteralsReadBack := by
  intro a
  have hhex := parseLiteral_hex (by simp [hexDigits]) (mapM_hexValue_hexDigits 3 a.toNat)
  have hbin := parseLiteral_bin (by simp) (mapM_binValue_bits a)
  rw [ofNat_digitsValue_toNat a (by rfl)] at hhex hbin
  exact ⟨hhex, hbin⟩

end Sys2Proof.Machine
end

section
/-! PROOFS. Bit-strings as numbers: their digits, their value, and the words they are cut into (R86, R90, R91, R92). -/

namespace Sys2Proof.Machine

/-- R86: the low `n` of the bits of a number stand after the bits of what is left of it. -/
theorem bitsOf_add (m n v : Nat) : bitsOf (m + n) v = bitsOf m (v / 2 ^ n) ++ bitsOf n v := by
  simp only [bitsOf, List.range_add, List.map_append, List.map_map]
  congr 1
  · refine List.map_congr_left fun i hi => ?_
    have hexp : m + n - 1 - i = m - 1 - i + n := by have := List.mem_range.1 hi; omega
    rw [hexp, Nat.testBit_div_two_pow]
  · refine List.map_congr_left fun i _ => ?_
    have hexp : m + n - 1 - (m + i) = n - 1 - i := by omega
    rw [Function.comp_apply, hexp]

/-- `n` bits show a number only up to `2 ^ n`. -/
theorem bitsOf_mod (n v : Nat) : bitsOf n (v % 2 ^ n) = bitsOf n v := by
  refine List.map_congr_left fun i hi => ?_
  have hlt : n - 1 - i < n := by have := List.mem_range.1 hi; omega
  rw [Nat.testBit_mod_two_pow, decide_eq_true hlt, Bool.true_and]

theorem bitsOf_mul_add {n y : Nat} (m x : Nat) (hy : y < 2 ^ n) : bitsOf (m + n) (x * 2 ^ n + y) = bitsOf m x ++ bitsOf n y := by
  have hdiv : (x * 2 ^ n + y) / 2 ^ n = x := by
    rw [Nat.add_comm, Nat.add_mul_div_right _ _ (Nat.two_pow_pos n), Nat.div_eq_of_lt hy, Nat.zero_add]
  have hmod : (x * 2 ^ n + y) % 2 ^ n = y := by rw [Nat.add_comm, Nat.add_mul_mod_self_right, Nat.mod_eq_of_lt hy]
  rw [bitsOf_add, hdiv, ← bitsOf_mod n (x * 2 ^ n + y), hmod]

theorem bitsOf_one_toNat (b : Bool) : bitsOf 1 b.toNat = [b] := by cases b <;> rfl

/-- R91: the value of the `n` bits of a number. -/
theorem bitsValue_bitsOf (n v : Nat) : bitsValue (bitsOf n v) = v % 2 ^ n := by
  induction n generalizing v with
  | zero => simp [bitsOf, bitsValue, Nat.mod_one]
  | succ n ih =>
    have hlast : bitsValue (bitsOf 1 v) = v % 2 := by
      rw [← bitsOf_mod, pow_one]
      obtain h | h := Nat.mod_two_eq_zero_or_one v <;> rw [h] <;> rfl
    rw [bitsOf_add, bitsValue_append, ih, hlast, length_bitsOf, pow_one, Nat.pow_succ', Nat.mod_mul]
    ring

/-- R91: a bit-string is the bits of its value. -/
theorem bitsOf_bitsValue (s : BitStr) : bitsOf s.length (bitsValue s) = s := by
  induction s with
  | nil => rfl
  | cons b s ih =>
    rw [List.length_cons, Nat.add_comm, bitsValue_cons, bitsOf_mul_add _ _ (bitsValue_lt s), bitsOf_one_toNat, ih]
    rfl

theorem eq_of_bitsValue_eq {s t : BitStr} (hlen : s.length = t.length) (hvalue : bitsValue s = bitsValue t) : s = t := by
  rw [← bitsOf_bitsValue s, hlen, hvalue, bitsOf_bitsValue]

/-- A character 1 among the first `k` makes the value large. -/
theorem two_pow_le_bitsValue {s : BitStr} {k : Nat} (h : true ∈ s.take k) : 2 ^ (s.length - k) ≤ bitsValue s := by
  have hpos : 1 ≤ bitsValue (s.take k) := by
    refine Nat.one_le_iff_ne_zero.2 fun hzero => ?_
    have hzeros : s.take k = List.replicate (s.take k).length false :=
      eq_of_bitsValue_eq List.length_replicate.symm (by rw [hzero, bitsValue_zeros])
    exact Bool.noConfusion (List.eq_of_mem_replicate (hzeros ▸ h))
  rw [← List.length_drop, ← List.take_append_drop k s, bitsValue_append, List.take_append_drop]
  exact (Nat.le_mul_of_pos_left _ hpos).trans (Nat.le_add_right _ _)

/-- R91: the first character counts `2 ^ (len - 1)`, and the rest is a shorter bit-string. -/
theorem bitsValue_eq_sum (s : BitStr) :
    bitsValue s = ∑ i ∈ Finset.range s.length, (s.getD i false).toNat * 2 ^ (s.length - 1 - i) := by
  induction s with
  | nil => rfl
  | cons b s ih =>
    rw [bitsValue_cons, ih, List.length_cons, Finset.sum_range_succ', Nat.add_comm]
    congr 1
    refine Finset.sum_congr rfl fun i _ => ?_
    have hexp : s.length + 1 - 1 - (i + 1) = s.length - 1 - i := by omega
    rw [List.getD_cons_succ, hexp]

/-- Settles O49: the big-endian value is the sum over the characters. -/
theorem bitsToIntIsBigEndian : Obligations.BitsToIntIsBigEndian := by
  refine ⟨rfl, fun s hs => ?_⟩
  rw [bitsToInt, if_neg (by simpa using hs), bitsValue_eq_sum]

/-- R92: a string that does not begin with its surplus of zeros stays. -/
theorem trim_of_mem {s : BitStr} (h : true ∈ s.take (s.length % 12)) : trimToPreviousMultipleOf12 s = s := by
  have hnot : ¬ (s.take (s.length % 12)).all (· == false) := fun hall => by simpa using List.all_eq_true.1 hall true h
  simp only [trimToPreviousMultipleOf12, if_neg hnot, ite_self]

/-- R92: a surplus of zeros is taken off. -/
theorem trim_of_notMem {s : BitStr} (h : true ∉ s.take (s.length % 12)) :
    trimToPreviousMultipleOf12 s = s.drop (s.length % 12) := by
  have hall : (s.take (s.length % 12)).all (· == false) := List.all_eq_true.2 fun b hb => by
    cases b
    · rfl
    · exact absurd hb h
  simp only [trimToPreviousMultipleOf12, if_pos hall]
  split
  next hzero => rw [hzero, List.drop_zero]
  · rfl

theorem length_trim_of_notMem {s : BitStr} (h : true ∉ s.take (s.length % 12)) :
    (trimToPreviousMultipleOf12 s).length = s.length - s.length % 12 := by
  rw [trim_of_notMem h, List.length_drop]

/-- R92: what is taken off and what is left are the string. -/
theorem zeros_append_trim {s : BitStr} (h : true ∉ s.take (s.length % 12)) :
    List.replicate (s.length % 12) false ++ trimToPreviousMultipleOf12 s = s := by
  have hlen : (s.take (s.length % 12)).length = s.length % 12 := List.length_take_of_le (Nat.mod_le _ _)
  have hzeros : s.take (s.length % 12) = List.replicate (s.length % 12) false :=
    List.eq_replicate_iff.2 ⟨hlen, fun b hb => by
      cases b
      · rfl
      · exact absurd hb h⟩
  rw [← hzeros, trim_of_notMem h, List.take_append_drop]

@[simp] theorem bitsValue_trim (s : BitStr) : bitsValue (trimToPreviousMultipleOf12 s) = bitsValue s := by
  by_cases h : true ∈ s.take (s.length % 12)
  · rw [trim_of_mem h]
  · conv_rhs => rw [← zeros_append_trim h, bitsValue_append, bitsValue_zeros, Nat.zero_mul, Nat.zero_add]

/-- Settles O50: the trim keeps a string or takes its surplus of zeros off. -/
theorem trimRemovesOnlyLeadingZeros : Obligations.TrimRemovesOnlyLeadingZeros := by
  refine fun s => ⟨bitsValue_trim s, trim_of_mem, fun h => ⟨(zeros_append_trim h).symm, ?_⟩⟩
  rw [length_trim_of_notMem h]
  omega

/-- R90: a string of whole chunks is cut into chunks of full length. -/
theorem length_of_mem_chunks {n : Nat} (hn : 0 < n) {s g : BitStr} (h : s.length % n = 0) (hg : g ∈ chunks n s) :
    g.length = n := by
  obtain ⟨j, hj⟩ := List.mem_iff_getElem?.1 hg
  obtain ⟨hlt, hlen⟩ := length_of_getElem?_chunks hj
  obtain ⟨q, hq⟩ := Nat.dvd_of_mod_eq_zero h
  have hcount : (s.length + n - 1) / n = q := by
    rw [hq, Nat.add_sub_assoc hn, Nat.mul_add_div hn, Nat.div_eq_of_lt (Nat.sub_one_lt_of_lt hn), Nat.add_zero]
  have hle : n * (j + 1) ≤ n * q := Nat.mul_le_mul_left n (hcount ▸ hlt)
  rw [hlen, hq]
  rw [Nat.mul_succ] at hle
  omega

/-- R90, R91: a string of whole chunks is the bits of their values. -/
theorem exists_words {n : Nat} (hn : 0 < n) {s : BitStr} (h : s.length % n = 0) :
    ∃ vs : List Nat, (∀ v ∈ vs, v < 2 ^ n) ∧ (vs.map (bitsOf n)).flatten = s := by
  have hlen := fun g => length_of_mem_chunks hn h (g := g)
  refine ⟨(chunks n s).map bitsValue, fun v hv => ?_, ?_⟩
  · obtain ⟨g, hg, rfl⟩ := List.mem_map.1 hv
    exact hlen g hg ▸ bitsValue_lt g
  · have hbits : ((chunks n s).map bitsValue).map (bitsOf n) = chunks n s := by
      rw [List.map_map]
      refine (List.map_congr_left fun g hg => ?_).trans (List.map_id _)
      have hg' := bitsOf_bitsValue g
      rwa [hlen g hg] at hg'
    rw [hbits, flatten_chunks hn]

end Sys2Proof.Machine
end

section
/-! PROOFS. The alphabet check on two strings and on valid characters (R85). -/

namespace Sys2Proof.Machine

/-- R85: one argument outside the alphabet is enough, whichever of the two it is. -/
theorem onChars2_bad {α : Type} (op : BitStr → BitStr → Proc α) {as bs : List Char}
    (h : ∃ ch, (ch ∈ as ∨ ch ∈ bs) ∧ ch ≠ '0' ∧ ch ≠ '1') : onChars2 op as bs = .error (.raised .invalidArgument) := by
  unfold onChars2
  obtain ⟨a, ha⟩ | ha := checkAlphabet_ok_or_error as
  case inr => rw [ha]; rfl
  have hb : checkAlphabet bs = .error (.raised .invalidArgument) := by
    obtain ⟨ch, hmem | hmem, hch⟩ := h
    · simp [checkAlphabet_bad ⟨ch, hmem, hch⟩] at ha
    · exact checkAlphabet_bad ⟨ch, hmem, hch⟩
  rw [ha, hb]
  rfl

/-- R85: the characters of a bit-string pass the check as its bits. -/
theorem checkAlphabet_chars (s : BitStr) : checkAlphabet (s.map fun b => if b then '1' else '0') = .ok s := by
  have hgood : ∀ b : Bool, ((if b then '1' else '0') == '0' || (if b then '1' else '0') == '1') = true := by decide
  have hbit : ∀ b : Bool, ((if b then '1' else '0') == '1') = b := by decide
  have hall : (s.map fun b => if b then '1' else '0').all (fun c => c == '0' || c == '1') = true := by
    rw [List.all_map]
    exact List.all_eq_true.2 fun b _ => hgood b
  have hbits : (s.map fun b => if b then '1' else '0').map (· == '1') = s := by
    rw [List.map_map]
    exact (List.map_congr_left fun b _ => hbit b).trans (List.map_id s)
  rw [checkAlphabet, if_pos hall, hbits]

/-- Settles O51: the check fails before the operation is reached, and passes valid characters on. -/
theorem badAlphabetIsInvalidArgument : Obligations.BadAlphabetIsInvalidArgument := by
  refine ⟨fun α op cs => onChars_bad op, fun as bs => onChars2_bad xorBits, fun α op s => ?_⟩
  rw [onChars, checkAlphabet_chars]
  rfl

end Sys2Proof.Machine
end

section
/-! PROOFS. The blocks of a bit-string and their groups (R9, R31, R32, R65, R93). -/

namespace Sys2Proof.Machine

open Sys2Proof.Spec

/-- R9: a block's characters are its bits, most significant first. -/
theorem bitsOfBlock_eq_bitsOf (a : Block) : bitsOfBlock a = bitsOf 12 a.toNat := by
  rw [bitsOfBlock, bitsOf, ← List.map_coe_finRange_eq_range, List.map_map]
  refine List.map_congr_left fun i _ => ?_
  simp [charAt, BitVec.getMsbD_eq_getLsbD, BitVec.testBit_toNat]

theorem bitsOfBlock_ofNat (v : Nat) : bitsOfBlock (BitVec.ofNat 12 v) = bitsOf 12 v := by
  rw [bitsOfBlock_eq_bitsOf, BitVec.toNat_ofNat, bitsOf_mod]

theorem blockOfBits_of_length {s : BitStr} (h : s.length = 12) : blockOfBits s = some (BitVec.ofNat 12 (bitsValue s)) := if_pos h

/-- R9, R30: a block is read back from its characters. -/
@[simp] theorem blockOfBits_bitsOfBlock (a : Block) : blockOfBits (bitsOfBlock a) = some a := by
  rw [blockOfBits_of_length (length_bitsOfBlock a), bitsOfBlock_eq_bitsOf, bitsValue_bitsOf, Nat.mod_eq_of_lt a.isLt,
    BitVec.ofNat_toNat, BitVec.setWidth_eq]

/-- R30: only a block's own characters are read as it. -/
theorem eq_bitsOfBlock_of_blockOfBits {s : BitStr} {a : Block} (h : blockOfBits s = some a) : s = bitsOfBlock a := by
  unfold blockOfBits at h
  split at h
  case isFalse => cases h
  next hlen =>
  have hbits := bitsOf_bitsValue s
  cases h
  rw [bitsOfBlock_ofNat]
  rw [hlen] at hbits
  exact hbits.symm

/-- R31: the characters of blocks in a row. -/
def bitsOfBlocks (as : List Block) : BitStr := (as.map bitsOfBlock).flatten

@[simp] theorem length_bitsOfBlocks (as : List Block) : (bitsOfBlocks as).length = 12 * as.length := by
  simp [bitsOfBlocks, Function.comp_def, Nat.mul_comm]

theorem bitsOfBlocks_cons (a : Block) (as : List Block) : bitsOfBlocks (a :: as) = bitsOfBlock a ++ bitsOfBlocks as := rfl

theorem bitsOfBlocks_ne_nil {as : List Block} (h : as ≠ []) : bitsOfBlocks as ≠ [] := by
  have hpos := List.length_pos_iff.2 h
  refine List.ne_nil_of_length_pos ?_
  rw [length_bitsOfBlocks]
  omega

/-- R31: an aligned bit-string is the characters of its blocks. -/
theorem exists_bitsOfBlocks {s : BitStr} (h : s.length % 12 = 0) : ∃ as, bitsOfBlocks as = s := by
  obtain ⟨vs, -, hvs⟩ := exists_words (by decide) h
  have hbits : bitsOfBlock ∘ BitVec.ofNat 12 = bitsOf 12 := funext bitsOfBlock_ofNat
  exact ⟨vs.map (BitVec.ofNat 12), by rw [bitsOfBlocks, List.map_map, hbits, hvs]⟩

theorem chunks_bitsOfBlocks (as : List Block) : chunks 12 (bitsOfBlocks as) = as.map bitsOfBlock :=
  chunks_flatten (by decide) _ (by simp)

theorem alignedBlocks_bitsOfBlocks (as : List Block) : alignedBlocks (bitsOfBlocks as) = .ok as := by
  have hblocks : alignedBlocks (bitsOfBlocks as) = pure (as.map id) := by
    rw [alignedBlocks, Config.blockBits, chunks_bitsOfBlocks]
    refine mapM_map_pure as fun a _ => ?_
    rw [blockOfBits_bitsOfBlock]
    rfl
  rw [hblocks, List.map_id]
  rfl

/-- A list on which a procedure answers is made of the answers, when each element is. -/
theorem eq_map_of_mapM_ok {α β ε : Type} {f : α → Except ε β} {g : β → α} (hf : ∀ x y, f x = .ok y → x = g y) {l : List α}
    {ys : List β} (h : l.mapM f = .ok ys) : l = ys.map g := by
  induction l generalizing ys with
  | nil => cases h; rfl
  | cons x l ih =>
    rw [List.mapM_cons] at h
    cases hx : f x with
    | error e => rw [hx] at h; cases h
    | ok y =>
      cases hl : l.mapM f with
      | error e => rw [hx, hl] at h; cases h
      | ok ys' =>
        rw [hx, hl] at h
        cases h
        rw [List.map_cons, ← hf x y hx, ← ih hl]

/-- R34: only strings of whole blocks have blocks, and are their characters. -/
theorem eq_bitsOfBlocks_of_alignedBlocks {s : BitStr} {as : List Block} (h : alignedBlocks s = .ok as) :
    s = bitsOfBlocks as := by
  have hchunks : chunks 12 s = as.map bitsOfBlock := by
    refine eq_map_of_mapM_ok (fun g a hg => eq_bitsOfBlock_of_blockOfBits ?_) h
    cases hb : blockOfBits g with
    | none => simp [hb] at hg
    | some b => simpa [hb] using hg
  rw [bitsOfBlocks, ← hchunks, flatten_chunks (by decide)]

/-- R65: the three characters of a group. -/
def bitsOfGroup (g : Group) : BitStr := bitsOf 3 g.toNat

/-- R65: the four groups of a block, group 0 leftmost. -/
def groupsOf (a : Block) : List Group := [groupAt a 0, groupAt a 1, groupAt a 2, groupAt a 3]

/-- The bits of two bit vectors side by side. -/
theorem bitsOf_toNat_append {m n : Nat} (x : BitVec m) (y : BitVec n) :
    bitsOf (m + n) (x ++ y).toNat = bitsOf m x.toNat ++ bitsOf n y.toNat := by
  rw [toNat_append_eq_mul_add, bitsOf_mul_add _ _ y.isLt]

theorem bitsOf_toNat_ofGroups (g0 g1 g2 g3 : Group) :
    bitsOf 12 (ofGroups g0 g1 g2 g3).toNat = bitsOfGroup g0 ++ bitsOfGroup g1 ++ bitsOfGroup g2 ++ bitsOfGroup g3 :=
  calc bitsOf 12 (ofGroups g0 g1 g2 g3).toNat
    _ = bitsOf 9 (g0 ++ g1 ++ g2).toNat ++ bitsOfGroup g3 := bitsOf_toNat_append (m := 9) (g0 ++ g1 ++ g2) g3
    _ = bitsOf 6 (g0 ++ g1).toNat ++ bitsOfGroup g2 ++ bitsOfGroup g3 :=
      congrArg (· ++ bitsOfGroup g3) (bitsOf_toNat_append (m := 6) (g0 ++ g1) g2)
    _ = bitsOfGroup g0 ++ bitsOfGroup g1 ++ bitsOfGroup g2 ++ bitsOfGroup g3 :=
      congrArg (· ++ bitsOfGroup g2 ++ bitsOfGroup g3) (bitsOf_toNat_append g0 g1)

/-- R65: a block's characters are those of its groups in order. -/
theorem bitsOfBlock_eq_groups (a : Block) : bitsOfBlock a = ((groupsOf a).map bitsOfGroup).flatten := by
  conv_lhs => rw [← ofGroups_groupAt a, bitsOfBlock_eq_bitsOf, bitsOf_toNat_ofGroups]
  simp [groupsOf]

theorem groupsOf_mapGroups (f : Group → Group) (a : Block) : groupsOf (mapGroups f a) = (groupsOf a).map f := by
  simp [groupsOf]

theorem bitsOfBlocks_eq_groups (as : List Block) : bitsOfBlocks as = ((as.flatMap groupsOf).map bitsOfGroup).flatten := by
  induction as with
  | nil => rfl
  | cons a as ih =>
    rw [bitsOfBlocks_cons, bitsOfBlock_eq_groups, ih, List.flatMap_cons, List.map_append, List.flatten_append]

/-- Settles O52: the length decides, and a string of 12 is a block's characters. -/
theorem permuteOnStrings : Obligations.PermuteOnStrings := by
  refine fun inv s => ⟨fun h => ?_, fun a ha => ?_, fun hne hlt => ?_⟩
  · rw [permuteBits, if_pos (by simpa using h)]
    rfl
  · have hs := eq_bitsOfBlock_of_blockOfBits ha
    have hguard : ¬ (s.isEmpty || decide (12 < s.length)) = true := by
      rw [hs]
      simp [← List.length_eq_zero_iff]
    rw [permuteBits, if_neg hguard, ha]
    cases inv <;> rfl
  · have hguard : ¬ (s.isEmpty || decide (12 < s.length)) = true := by
      simp [hne]
      omega
    have hnone : blockOfBits s = none := if_neg hlt.ne
    rw [permuteBits, if_neg hguard, hnone]

/-- R86: a text of characters below 256 is encoded as their eight bits each, unless it is empty. -/
theorem encodeText_of_lt {t : Text} (ht : t ≠ []) (h : ∀ c ∈ t, c < 256) : encodeText t = .ok (t.map (bitsOf 8)).flatten := by
  have hcode : ∀ c ∈ t, codeOf c = c := fun c hc => if_neg (by have := h c hc; omega)
  rw [encodeText_ok ht fun c hc => .inl (Nat.le_of_lt_succ (h c hc)), List.map_congr_left fun c hc => by rw [hcode c hc]]

/-- R32: a block that ends in the high half of a character. -/
theorem bitsOf_block_high {x y : Nat} (hy : y < 256) : bitsOf 12 (x * 16 + y / 16) = bitsOf 8 x ++ bitsOf 4 (y / 16) :=
  bitsOf_mul_add (n := 4) 8 x (by omega)

/-- R32: a block that begins with the low half of a character. -/
theorem bitsOf_block_low {y z : Nat} (hz : z < 256) : bitsOf 12 (y % 16 * 256 + z) = bitsOf 4 (y % 16) ++ bitsOf 8 z :=
  bitsOf_mul_add (n := 8) 4 (y % 16) hz

theorem bitsOf_byte_halves (y : Nat) : bitsOf 8 y = bitsOf 4 (y / 16) ++ bitsOf 4 (y % 16) :=
  (bitsOf_add 4 4 y).trans (congrArg (bitsOf 4 (y / 16) ++ ·) (bitsOf_mod 4 y).symm)

/-- Settles O54: a character's bits are cut in halves where a block ends within it. -/
theorem charactersStraddleBlocks : Obligations.CharactersStraddleBlocks := by
  intro c0 c1 c2 c3 h0 h1 h2 h3
  refine ⟨⟨_, encodeText_of_lt (by simp) (by simp [h0, h1, h2]), ?three⟩,
    ⟨_, encodeText_of_lt (by simp) (by simp [h0, h1, h2, h3]), ?four⟩⟩
  case three =>
    rw [← alignedBlocks_bitsOfBlocks, padLeft_of_length (by simp [roundUp])]
    simp only [bitsOfBlocks, List.map_cons, List.map_nil, bitsOfBlock_ofNat, bitsOf_block_high h1, bitsOf_block_low h2,
      bitsOf_byte_halves c1]
    simp
  case four =>
    have hzeros : bitsOf 4 0 = List.replicate 4 false := rfl
    have hpad : bitsOf 12 c0 = bitsOf 4 0 ++ bitsOf 8 c0 := by simpa using bitsOf_mul_add (n := 8) 4 0 h0
    rw [← alignedBlocks_bitsOfBlocks, padLeft]
    simp only [bitsOfBlocks, List.map_cons, List.map_nil, bitsOfBlock_ofNat, bitsOf_block_high h2, bitsOf_block_low h3,
      bitsOf_byte_halves c2, hpad, hzeros]
    simp [roundUp]

end Sys2Proof.Machine
end

section
/-! PROOFS. The host's operations on aligned bit-strings, block by block (R55, R62, R70, R80). -/

namespace Sys2Proof.Machine

open Sys2Proof.Spec

/-- R17, R18: the row of the active S-Box map. -/
def sboxRow (inverse : Bool) : Group → Group := if inverse then siMap else sMap

theorem sboxUnit_eq (inverse : Bool) (g : Group) : sboxUnit inverse g = .ok (sboxRow inverse g) := by
  cases inverse
  · exact sboxUnit_forward g
  · exact sboxUnit_inverse g

/-- R94: the characters of a group become those of its entry. -/
theorem substituteGroup_bitsOfGroup (inverse : Bool) (g : Group) :
    substituteGroup inverse (bitsOfGroup g) = .ok (bitsOfGroup (sboxRow inverse g)) := by
  have hread : BitVec.ofNat 3 (bitsValue (bitsOfGroup g)) = g := by
    rw [bitsOfGroup, bitsValue_bitsOf, Nat.mod_eq_of_lt g.isLt, BitVec.ofNat_toNat, BitVec.setWidth_eq]
  rw [substituteGroup, hread, sboxUnit_eq]
  rfl

/-- R70: `substitute` on whole blocks puts every group of every block through the active row. -/
theorem substituteBits_bitsOfBlocks (inverse : Bool) {as : List Block} (h : as ≠ []) :
    substituteBits inverse (bitsOfBlocks as) = .ok (bitsOfBlocks (as.map (mapGroups (sboxRow inverse)))) := by
  have hguard : ¬ ((bitsOfBlocks as).isEmpty || decide ((bitsOfBlocks as).length % Config.groupBits ≠ 0)) = true := by
    have hmod : 12 * as.length % 3 = 0 := by omega
    simp [bitsOfBlocks_ne_nil h, Config.groupBits, hmod]
  have hchunks : chunks Config.groupBits (bitsOfBlocks as) = (as.flatMap groupsOf).map bitsOfGroup := by
    rw [bitsOfBlocks_eq_groups]
    refine chunks_flatten (by decide) _ fun g hg => ?_
    obtain ⟨x, -, rfl⟩ := List.mem_map.1 hg
    exact length_bitsOf 3 x.toNat
  have hgroups : (as.map (mapGroups (sboxRow inverse))).flatMap groupsOf = (as.flatMap groupsOf).map (sboxRow inverse) := by
    simp only [List.flatMap_map, groupsOf_mapGroups, List.map_flatMap]
  rw [substituteBits, if_neg hguard, hchunks,
    mapM_map_pure (h := fun g => bitsOfGroup (sboxRow inverse g)) _ fun g _ => substituteGroup_bitsOfGroup inverse g,
    bitsOfBlocks_eq_groups, hgroups, List.map_map]
  rfl

/-- R93: `permute` on a block's characters. -/
theorem permuteBits_bitsOfBlock (inverse : Bool) (a : Block) :
    permuteBits inverse (bitsOfBlock a) = .ok (bitsOfBlock (pboxUnit inverse a)) := by
  obtain ⟨-, hblock, -⟩ := permuteOnStrings inverse (bitsOfBlock a)
  rw [hblock a (blockOfBits_bitsOfBlock a)]
  cases inverse <;> rfl

/-- R62: `permute` on a sequence of whole blocks. -/
theorem permuteSeq_map_bitsOfBlock (inverse : Bool) (as : List Block) :
    permuteSeq inverse (as.map bitsOfBlock) = .ok (bitsOfBlocks (as.map (pboxUnit inverse))) := by
  rw [permuteSeq, mapM_map_pure (h := fun a => bitsOfBlock (pboxUnit inverse a)) as fun a _ => permuteBits_bitsOfBlock inverse a,
    bitsOfBlocks, List.map_map]
  rfl

/-- R70: `substitute` on a sequence of whole blocks. -/
theorem substituteSeq_map_bitsOfBlock (inverse : Bool) (as : List Block) :
    substituteSeq inverse (as.map bitsOfBlock) = .ok (bitsOfBlocks (as.map (mapGroups (sboxRow inverse)))) := by
  have hone : ∀ a, substituteBits inverse (bitsOfBlock a) = .ok (bitsOfBlock (mapGroups (sboxRow inverse) a)) := fun a => by
    simpa [bitsOfBlocks] using substituteBits_bitsOfBlocks inverse (List.cons_ne_nil a [])
  rw [substituteSeq, mapM_map_pure (h := fun a => bitsOfBlock (mapGroups (sboxRow inverse) a)) as fun a _ => hone a,
    bitsOfBlocks, List.map_map]
  rfl

theorem splitIntoBlocks_bitsOfBlocks {as : List Block} (h : as ≠ []) :
    splitIntoBlocks (bitsOfBlocks as) = .ok (as.map bitsOfBlock) := by
  rw [splitIntoBlocks_ok (bitsOfBlocks_ne_nil h), chunks_bitsOfBlocks]

theorem zipWith_xor_bitsOfBlock (a b : Block) :
    List.zipWith (fun x y => x ^^ y) (bitsOfBlock a) (bitsOfBlock b) = bitsOfBlock (xor12 a b) := by
  simp [bitsOfBlock, List.zipWith_map, List.zipWith_self]

theorem zipWith_xor_bitsOfBlocks {as bs : List Block} (h : as.length = bs.length) :
    List.zipWith (fun x y => x ^^ y) (bitsOfBlocks as) (bitsOfBlocks bs) = bitsOfBlocks (List.zipWith xor12 as bs) := by
  induction as generalizing bs with
  | nil => rfl
  | cons a as ih =>
    cases bs with
    | nil => cases h
    | cons b bs =>
      simp only [bitsOfBlocks_cons, List.zipWith_cons_cons]
      rw [List.zipWith_append (by simp), zipWith_xor_bitsOfBlock, ih (Nat.succ.inj h)]

/-- R55: `xor` of whole blocks. -/
theorem xorBits_bitsOfBlocks {as bs : List Block} (hne : as ≠ []) (h : as.length = bs.length) :
    xorBits (bitsOfBlocks as) (bitsOfBlocks bs) = .ok (bitsOfBlocks (List.zipWith xor12 as bs)) := by
  have hne' : bs ≠ [] := List.ne_nil_of_length_pos (h ▸ List.length_pos_iff.2 hne)
  have hguard : ¬ ((bitsOfBlocks as).isEmpty || (bitsOfBlocks bs).isEmpty) = true := by
    simp [bitsOfBlocks_ne_nil hne, bitsOfBlocks_ne_nil hne']
  rw [xorBits, if_neg hguard, if_neg (by simp [h]), zipWith_xor_bitsOfBlocks h]

/-- Settles O29: the strings are the characters of their blocks. -/
theorem xorOfStringsIsBlockwise : Obligations.XorOfStringsIsBlockwise := by
  intro s t as bs hne hlen has hbs
  obtain rfl := eq_bitsOfBlocks_of_alignedBlocks has
  obtain rfl := eq_bitsOfBlocks_of_alignedBlocks hbs
  exact xorBits_bitsOfBlocks (by rintro rfl; exact hne rfl) (by simpa using hlen)

/-- Settles O53: the guard refuses the bad lengths, and the string is the characters of its blocks. -/
theorem substituteOnStringsIsBlockwise : Obligations.SubstituteOnStringsIsBlockwise := by
  refine ⟨fun inv s h => ?_, fun inv s as ys hne has hys => ?_⟩
  · have hguard : (s.isEmpty || decide (s.length % 3 ≠ 0)) = true := by
      obtain rfl | hmod := h
      · rfl
      · rw [decide_eq_true hmod, Bool.or_true]
    exact if_pos hguard
  · obtain rfl := eq_bitsOfBlocks_of_alignedBlocks has
    have hblock : ∀ a, (if inv then subiBlock else subBlock) a = .ok (mapGroups (sboxRow inv) a) := fun a => by
      cases inv
      · exact subBlock_eq_mapGroups a
      · exact subiBlock_eq_mapGroups a
    cases (mapM_ok as fun a _ => hblock a).symm.trans hys
    exact substituteBits_bitsOfBlocks inv (by rintro rfl; exact hne rfl)

/-- R95 steps 4 and 5 on one block. -/
def forwardBlock (a : Block) : Block := mapGroups sMap (permBlock a)

/-- R96 steps 4 and 6 on one block. -/
def inverseBlock (a : Block) : Block := permiBlock (mapGroups siMap a)

theorem forwardBoxes_bitsOfBlocks {as : List Block} (h : as ≠ []) :
    forwardBoxes (bitsOfBlocks as) = .ok (bitsOfBlocks (as.map forwardBlock)) := by
  have hpermuted : (as.map bitsOfBlock).mapM (permuteBits false) = pure (as.map fun a => bitsOfBlock (permBlock a)) :=
    mapM_map_pure as fun a _ => permuteBits_bitsOfBlock false a
  have hmap : (as.map fun a => bitsOfBlock (permBlock a)) = (as.map permBlock).map bitsOfBlock := by
    rw [List.map_map]
    rfl
  simp only [forwardBoxes, splitIntoBlocks_bitsOfBlocks h, hpermuted, hmap, bind, Except.bind, pure, Except.pure,
    substituteSeq_map_bitsOfBlock]
  rw [List.map_map]
  rfl

theorem inverseBoxes_bitsOfBlocks {as : List Block} (h : as ≠ []) :
    inverseBoxes (bitsOfBlocks as) = .ok (bitsOfBlocks (as.map inverseBlock)) := by
  have hne : as.map (mapGroups (sboxRow true)) ≠ [] := by simpa using h
  simp only [inverseBoxes, splitIntoBlocks_bitsOfBlocks h, substituteSeq_map_bitsOfBlock, splitIntoBlocks_bitsOfBlocks hne,
    permuteSeq_map_bitsOfBlock, bind, Except.bind]
  rw [List.map_map]
  rfl

section Triples

variable {ts : List (Block × Block × Block)}

/-- Three bit-strings of one length as the characters of a list of triples of blocks. -/
theorem exists_triples {s k1 k2 : BitStr} (hs : s.length % 12 = 0) (h1 : k1.length = s.length) (h2 : k2.length = s.length) :
    ∃ ts : List (Block × Block × Block), bitsOfBlocks (ts.map fun t => t.1) = s ∧ bitsOfBlocks (ts.map fun t => t.2.1) = k1 ∧
      bitsOfBlocks (ts.map fun t => t.2.2) = k2 := by
  obtain ⟨as, rfl⟩ := exists_bitsOfBlocks hs
  obtain ⟨bs, rfl⟩ := exists_bitsOfBlocks (h1 ▸ hs)
  obtain ⟨cs, rfl⟩ := exists_bitsOfBlocks (h2 ▸ hs)
  simp only [length_bitsOfBlocks] at h1 h2
  have hsnd : (as.zip (bs.zip cs)).map Prod.snd = bs.zip cs := List.map_snd_zip (by simp; omega)
  have hmap : ∀ f : Block × Block → Block, (as.zip (bs.zip cs)).map (fun t => f t.2) = (bs.zip cs).map f := fun f => by
    conv_rhs => rw [← hsnd, List.map_map]
    rfl
  refine ⟨as.zip (bs.zip cs), ?_, ?_, ?_⟩
  · exact congrArg bitsOfBlocks (List.map_fst_zip (by simp; omega))
  · rw [hmap Prod.fst, List.map_fst_zip (by omega)]
  · rw [hmap Prod.snd, List.map_snd_zip (by omega)]

variable (h : ts ≠ [])
include h

theorem xorBits_map (f g : Block × Block × Block → Block) :
    xorBits (bitsOfBlocks (ts.map f)) (bitsOfBlocks (ts.map g)) = .ok (bitsOfBlocks (ts.map fun t => xor12 (f t) (g t))) := by
  rw [xorBits_bitsOfBlocks (by simpa using h) (by simp), List.zipWith_map, List.zipWith_self]

theorem forwardBoxes_map (f : Block × Block × Block → Block) :
    forwardBoxes (bitsOfBlocks (ts.map f)) = .ok (bitsOfBlocks (ts.map fun t => forwardBlock (f t))) := by
  rw [forwardBoxes_bitsOfBlocks (by simpa using h), List.map_map]
  rfl

theorem inverseBoxes_map (f : Block × Block × Block → Block) :
    inverseBoxes (bitsOfBlocks (ts.map f)) = .ok (bitsOfBlocks (ts.map fun t => inverseBlock (f t))) := by
  rw [inverseBoxes_bitsOfBlocks (by simpa using h), List.map_map]
  rfl

/-- R80: SC's steps on whole strings encipher every block with its own key blocks. -/
theorem encryptBits_map :
    encryptBits (bitsOfBlocks (ts.map fun t => t.1)) (bitsOfBlocks (ts.map fun t => t.2.1))
        (bitsOfBlocks (ts.map fun t => t.2.2)) =
      .ok (bitsOfBlocks (ts.map fun t => encValue t.1 t.2.1 t.2.2)) := by
  simp only [encryptBits, xorBits_map h, forwardBoxes_map h, bind, Except.bind]
  rfl

/-- R80: and decipher every block. -/
theorem decryptBits_map :
    decryptBits (bitsOfBlocks (ts.map fun t => t.1)) (bitsOfBlocks (ts.map fun t => t.2.1))
        (bitsOfBlocks (ts.map fun t => t.2.2)) =
      .ok (bitsOfBlocks (ts.map fun t => decValue t.1 t.2.1 t.2.2)) := by
  simp only [decryptBits, xorBits_map h, inverseBoxes_map h, bind, Except.bind]
  rfl

end Triples

/-- R97: a command answered with a result. -/
theorem sendCommand_ok {mk : Block → Block → Block → Instr} {a b c y : Block} (h : execWord (encode (mk a b c)) = okRsp y) :
    sendCommand mk a b c = .ok (bitsOfBlock y) := by
  simp [sendCommand, h]

/-- R97: one command per triple of blocks. -/
theorem driveBlocks_map {mk : Block → Block → Block → Instr} {f : Block → Block → Block → Block}
    (hmk : ∀ a b c, execWord (encode (mk a b c)) = okRsp (f a b c)) (ts : List (Block × Block × Block)) :
    driveBlocks mk (bitsOfBlocks (ts.map fun t => t.1)) (bitsOfBlocks (ts.map fun t => t.2.1))
        (bitsOfBlocks (ts.map fun t => t.2.2)) =
      .ok (bitsOfBlocks (ts.map fun t => f t.1 t.2.1 t.2.2)) := by
  have hguard : ¬ ((bitsOfBlocks (ts.map fun t => t.1)).length ≠ (bitsOfBlocks (ts.map fun t => t.2.1)).length ∨
      (bitsOfBlocks (ts.map fun t => t.1)).length ≠ (bitsOfBlocks (ts.map fun t => t.2.2)).length) := by simp
  have hzip : (ts.map fun t => t.1).zip ((ts.map fun t => t.2.1).zip (ts.map fun t => t.2.2)) = ts := by
    rw [List.zip_map', List.zip_map']
    exact List.map_id ts
  have hsend : ts.mapM (fun t => sendCommand mk t.1 t.2.1 t.2.2) = .ok (ts.map fun t => bitsOfBlock (f t.1 t.2.1 t.2.2)) :=
    mapM_ok ts fun t _ => sendCommand_ok (hmk t.1 t.2.1 t.2.2)
  rw [driveBlocks, if_neg hguard]
  simp only [alignedBlocks_bitsOfBlocks, bind, Except.bind, hzip, hsend]
  rw [bitsOfBlocks, List.map_map]
  rfl

/-- Settles O55: the strings are the characters of triples of blocks, on which both ways give the cipher's blocks. -/
theorem messageIsEncipheredBlockByBlock : Obligations.MessageIsEncipheredBlockByBlock := by
  intro pt k1 k2 hne hpt h1 h2
  obtain ⟨ts, rfl, rfl, rfl⟩ := exists_triples hpt h1 h2
  have hts : ts ≠ [] := by rintro rfl; exact hne rfl
  exact ⟨⟨_, encryptBits_map hts, by simp, driveBlocks_map execWord_encode_enc ts⟩,
    ⟨_, decryptBits_map hts, by simp, driveBlocks_map execWord_encode_dec ts⟩⟩

end Sys2Proof.Machine
end

section
/-! PROOFS. The text-level cipher by steps and by commands (R95, R96, R97). -/

namespace Sys2Proof.Machine

/-- R88: what a successful alignment has aligned. -/
theorem alignToTriple_eq_ok {a b c a' b' c' : BitStr} (h : alignToTriple a b c = .ok (a', b', c')) :
    ∃ n, n = roundUp 12 (max (max a.length b.length) c.length) ∧ a ≠ [] ∧ b ≠ [] ∧ c ≠ [] ∧
      a' = padLeft n a ∧ b' = padLeft n b ∧ c' = padLeft n c := by
  by_cases hempty : a = [] ∨ b = [] ∨ c = []
  · rw [alignToTriple_empty hempty] at h
    cases h
  · obtain ⟨ha, hb, hc⟩ : a ≠ [] ∧ b ≠ [] ∧ c ≠ [] := by simpa [not_or] using hempty
    rw [alignToTriple_ok ha hb hc rfl] at h
    cases h
    exact ⟨_, rfl, ha, hb, hc, rfl, rfl, rfl⟩

/-- R88: aligned strings are not empty and have one length, a multiple of 12. -/
theorem length_of_alignToTriple {a b c a' b' c' : BitStr} (h : alignToTriple a b c = .ok (a', b', c')) :
    a' ≠ [] ∧ a'.length % 12 = 0 ∧ b'.length = a'.length ∧ c'.length = a'.length := by
  obtain ⟨n, hn, ha, -, -, rfl, rfl, rfl⟩ := alignToTriple_eq_ok h
  have hle : max (max a.length b.length) c.length ≤ n := hn ▸ le_roundUp (by decide) _
  have hpos := List.length_pos_iff.2 ha
  have hlen : (padLeft n a).length = n := length_padLeft (by omega)
  refine ⟨List.ne_nil_of_length_pos (by omega), ?_, ?_, ?_⟩
  · rw [hlen, hn]
    exact Nat.mod_eq_zero_of_dvd (dvd_roundUp 12 _)
  · rw [hlen, length_padLeft (by omega)]
  · rw [hlen, length_padLeft (by omega)]

section Cores

variable {core core' : BitStr → BitStr → BitStr → Proc BitStr}
  (h : ∀ s k1 k2 : BitStr, s ≠ [] → s.length % 12 = 0 → k1.length = s.length → k2.length = s.length →
    core s k1 k2 = core' s k1 k2)
include h

/-- Two ways of doing the middle steps that agree on aligned strings agree after any alignment. -/
theorem alignToTriple_bind_congr (a b c : BitStr) :
    (alignToTriple a b c >>= fun r => core r.1 r.2.1 r.2.2 >>= decodeText) =
      (alignToTriple a b c >>= fun r => core' r.1 r.2.1 r.2.2 >>= decodeText) := by
  cases hal : alignToTriple a b c with
  | error e => rfl
  | ok r =>
    obtain ⟨s, k1, k2⟩ := r
    obtain ⟨hne, hs, h1, h2⟩ := length_of_alignToTriple hal
    exact congrArg (· >>= decodeText) (h s k1 k2 hne hs h1 h2)

theorem encryptWith_congr : encryptWith core = encryptWith core' := by
  funext t key1 key2
  unfold encryptWith
  split
  · rfl
  · exact bind_congr fun pt => bind_congr fun b1 => bind_congr fun b2 => alignToTriple_bind_congr h pt b1 b2

theorem decryptWith_congr : decryptWith core = decryptWith core' := by
  funext t key1 key2
  unfold decryptWith
  split
  · rfl
  · exact bind_congr fun ct => bind_congr fun b1 => bind_congr fun b2 =>
      alignToTriple_bind_congr h (trimToPreviousMultipleOf12 ct) b1 b2

end Cores

/-- Settles O56: the two ways of doing the middle steps agree on aligned strings, and the other steps are the same. -/
theorem textCipherByCommands : Obligations.TextCipherByCommands := by
  have henc : encryptByCommands = encrypt := encryptWith_congr fun s k1 k2 hne hs h1 h2 => by
    obtain ⟨⟨s2, hsteps, -, hcommands⟩, -⟩ := messageIsEncipheredBlockByBlock s k1 k2 hne hs h1 h2
    rw [hsteps, hcommands]
  have hdec : decryptByCommands = decrypt := decryptWith_congr fun s k1 k2 hne hs h1 h2 => by
    obtain ⟨-, s2, hsteps, -, hcommands⟩ := messageIsEncipheredBlockByBlock s k1 k2 hne hs h1 h2
    rw [hsteps, hcommands]
  exact fun t key1 key2 => ⟨by rw [henc], by rw [hdec]⟩

/-- Settles O57: the guard is the first step. -/
theorem emptyArgumentsAreInvalid : Obligations.EmptyArgumentsAreInvalid := by
  intro t key1 key2 h
  have hguard : (t.isEmpty || key1.isEmpty || key2.isEmpty) = true := by simpa [or_assoc] using h
  exact ⟨if_pos hguard, if_pos hguard⟩

end Sys2Proof.Machine
end

section
/-! PROOFS. The bytes of an encoded text, and what they decode to (R86, R87). -/

namespace Sys2Proof.Machine

open Sys2Proof.Spec

/-- R86: the bits of a list of character codes. -/
def bitsOfBytes (vs : List Nat) : BitStr := (vs.map (bitsOf 8)).flatten

@[simp] theorem length_bitsOfBytes (vs : List Nat) : (bitsOfBytes vs).length = 8 * vs.length := by
  simp [bitsOfBytes, Function.comp_def, Nat.mul_comm]

/-- Leading zero bytes do not count in the value. -/
theorem bitsValue_bitsOfBytes_zeros (k : Nat) (vs : List Nat) :
    bitsValue (bitsOfBytes (List.replicate k 0 ++ vs)) = bitsValue (bitsOfBytes vs) := by
  induction k with
  | zero => rfl
  | succ k ih =>
    have hcons : bitsOfBytes (List.replicate (k + 1) 0 ++ vs) =
        List.replicate 8 false ++ bitsOfBytes (List.replicate k 0 ++ vs) := rfl
    rw [hcons, bitsValue_append, bitsValue_zeros, ih, Nat.zero_mul, Nat.zero_add]

theorem encodeText_eq_ok {t : Text} {s : BitStr} (h : encodeText t = .ok s) :
    t ≠ [] ∧ (∀ c ∈ t, encodable c) ∧ s = bitsOfBytes (t.map codeOf) := by
  have hne : t ≠ [] := by rintro rfl; cases h
  have hcodes : ∀ c ∈ t, encodable c := fun c hc => by
    by_contra hbad
    rw [encodeText_error ⟨c, hc, hbad⟩] at h
    cases h
  rw [encodeText_ok hne hcodes] at h
  cases h
  exact ⟨hne, hcodes, by rw [bitsOfBytes, List.map_map]; rfl⟩

/-- R87: a bit-string decodes to the characters of its bytes, without the leading U+2400 characters. -/
theorem decodeText_of_bytes {s : BitStr} {vs : List Nat} (hs : s ≠ []) (hvs : ∀ v ∈ vs, v < 256)
    (hpad : padLeft (roundUp 8 s.length) s = bitsOfBytes vs) :
    decodeText s = .ok ((vs.map decodeByte).dropWhile fun c => c == 0x2400) := by
  have hchunks : chunks 8 (bitsOfBytes vs) = vs.map (bitsOf 8) := chunks_flatten (by decide) _ (by simp)
  have hbytes : (vs.map (bitsOf 8)).map (fun g => decodeByte (bitsValue g)) = vs.map decodeByte := by
    rw [List.map_map]
    refine List.map_congr_left fun v hv => ?_
    rw [Function.comp_apply, bitsValue_bitsOf, Nat.mod_eq_of_lt (show v < 2 ^ 8 from hvs v hv)]
  rw [decodeText, if_neg (by simpa using hs)]
  simp only [Config.byteBits, hpad, hchunks, hbytes]
  rfl

theorem roundUp_of_dvd {m n : Nat} (hm : 0 < m) (h : m ∣ n) : roundUp m n = n :=
  Nat.le_antisymm (roundUp_le_of_dvd hm h le_rfl) (le_roundUp hm n)

/-- Settles O46: an encoded text is whole bytes, and each comes back as its character. -/
theorem decodeTextOfEncodeText : Obligations.DecodeTextOfEncodeText := by
  intro t s h
  obtain ⟨hne, hcodes, rfl⟩ := encodeText_eq_ok h
  have hpos := List.length_pos_iff.2 hne
  have hs : bitsOfBytes (t.map codeOf) ≠ [] := List.ne_nil_of_length_pos (by simp; omega)
  have hlt : ∀ v ∈ t.map codeOf, v < 256 := fun v hv => by
    obtain ⟨c, hc, rfl⟩ := List.mem_map.1 hv
    exact codeOf_lt (hcodes c hc)
  rw [decodeText_of_bytes hs hlt (padLeft_of_length (by rw [roundUp_of_dvd] <;> simp)), List.map_map]
  rfl

end Sys2Proof.Machine
end

section
/-! PROOFS. The text round trip away from the zero-block boundary (R95, R96, R103). -/

namespace Sys2Proof.Machine

open Sys2Proof.Spec

/-- R86, R87: a byte's character is encoded as the byte. -/
theorem codeOf_decodeByte {v : Nat} (h : v < 256) : encodable (decodeByte v) ∧ codeOf (decodeByte v) = v := by
  unfold encodable codeOf decodeByte symbolOf
  split <;> split <;> omega

theorem decodeByte_eq_picture_zero_iff {v : Nat} (hv : v < 256) : decodeByte v = 0x2400 ↔ v = 0 := by
  unfold decodeByte symbolOf
  split <;> omega

theorem encodeText_map_decodeByte {ws : List Nat} (hne : ws ≠ []) (hws : ∀ v ∈ ws, v < 256) :
    encodeText (ws.map decodeByte) = .ok (bitsOfBytes ws) := by
  have hcodes : ∀ c ∈ ws.map decodeByte, encodable c := fun c hc => by
    obtain ⟨v, hv, rfl⟩ := List.mem_map.1 hc
    exact (codeOf_decodeByte (hws v hv)).1
  rw [encodeText_ok (by simpa using hne) hcodes, List.map_map, bitsOfBytes]
  congr 2
  refine List.map_congr_left fun v hv => ?_
  rw [Function.comp_apply, (codeOf_decodeByte (hws v hv)).2]

/-- R87: the characters that are stripped are those of the leading zero bytes. -/
theorem exists_dropWhile_map_decodeByte {vs : List Nat} (hvs : ∀ v ∈ vs, v < 256) :
    ∃ k ws, vs = List.replicate k 0 ++ ws ∧ ((vs.map decodeByte).dropWhile fun c => c == 0x2400) = ws.map decodeByte := by
  induction vs with
  | nil => exact ⟨0, [], rfl, rfl⟩
  | cons v vs ih =>
    have hv := hvs v (by simp)
    by_cases hzero : v = 0
    · obtain ⟨k, ws, hsplit, hdrop⟩ := ih fun w hw => hvs w (by simp [hw])
      refine ⟨k + 1, ws, by rw [hzero, hsplit]; rfl, ?_⟩
      rw [List.map_cons, List.dropWhile_cons_of_pos (by simpa [decodeByte_eq_picture_zero_iff hv] using hzero), hdrop]
    · refine ⟨0, v :: vs, rfl, ?_⟩
      rw [List.map_cons, List.dropWhile_cons_of_neg (by simpa [decodeByte_eq_picture_zero_iff hv] using hzero)]

/-- R103: what a bit-string with some character 1 decodes to encodes to a bit-string of the same value, hardly longer. -/
theorem exists_encodeText_of_decodeText {s : BitStr} (h : bitsValue s ≠ 0) :
    ∃ c ct, decodeText s = .ok c ∧ encodeText c = .ok ct ∧ bitsValue ct = bitsValue s ∧ ct.length < s.length + 8 := by
  have hs : s ≠ [] := by rintro rfl; exact h rfl
  have hlen : (padLeft (roundUp 8 s.length) s).length = roundUp 8 s.length := length_padLeft (le_roundUp (by decide) _)
  obtain ⟨vs, hvs, hbits⟩ := exists_words (n := 8) (by decide) (hlen ▸ Nat.mod_eq_zero_of_dvd (dvd_roundUp 8 _))
  obtain ⟨k, ws, rfl, hdrop⟩ := exists_dropWhile_map_decodeByte hvs
  have hvalue : bitsValue (bitsOfBytes ws) = bitsValue s := by
    rw [← bitsValue_bitsOfBytes_zeros k, ← bitsValue_padLeft (roundUp 8 s.length) s, ← hbits, bitsOfBytes]
  have hws : ws ≠ [] := by rintro rfl; exact h hvalue.symm
  refine ⟨_, _, decodeText_of_bytes hs hvs hbits.symm, ?_, hvalue, ?_⟩
  · rw [hdrop]
    exact encodeText_map_decodeByte hws fun v hv => hvs v (List.mem_append_right _ hv)
  · have hbytes : 8 * (k + ws.length) = roundUp 8 s.length := by
      have hbits' := length_bitsOfBytes (List.replicate k 0 ++ ws)
      rw [List.length_append, List.length_replicate] at hbits'
      rw [← hbits', ← hlen, ← hbits, bitsOfBytes]
    have hround : roundUp 8 s.length < s.length + 8 := by unfold roundUp; omega
    rw [length_bitsOfBytes]
    omega

/-- R92, R103: a string that has the value of an aligned string with a leftmost block that is not zero, and is hardly longer, is
trimmed to at most the aligned length and less than a block below it. -/
theorem length_trim_bounds {s ct : BitStr} (hs : s.length % 12 = 0) (hne : s ≠ []) (hfirst : true ∈ s.take 12)
    (hvalue : bitsValue ct = bitsValue s) (hlen : ct.length < s.length + 8) :
    (trimToPreviousMultipleOf12 ct).length ≤ s.length ∧ s.length < (trimToPreviousMultipleOf12 ct).length + 12 := by
  have hlow : 2 ^ (s.length - 12) ≤ bitsValue ct := hvalue ▸ two_pow_le_bitsValue hfirst
  have hhigh : bitsValue ct < 2 ^ s.length := hvalue ▸ bitsValue_lt s
  constructor
  · by_cases hmem : true ∈ ct.take (ct.length % 12)
    · have hlt : ct.length - ct.length % 12 < s.length :=
        (Nat.pow_lt_pow_iff_right (by decide)).1 ((two_pow_le_bitsValue hmem).trans_lt hhigh)
      rw [trim_of_mem hmem]
      omega
    · rw [length_trim_of_notMem hmem]
      omega
  · have htrim : 2 ^ (s.length - 12) < 2 ^ (trimToPreviousMultipleOf12 ct).length :=
      hlow.trans_lt (bitsValue_trim ct ▸ bitsValue_lt _)
    have hpos := List.length_pos_iff.2 hne
    have hlt := (Nat.pow_lt_pow_iff_right (by decide)).1 htrim
    omega

/-- R88: the multiple of 12 that holds a length and is less than a block above it. -/
theorem eq_roundUp {m n : Nat} (h : n % 12 = 0) (hle : m ≤ n) (hlt : n < m + 12) : n = roundUp 12 m := by
  unfold roundUp
  omega

/-- R88, R92, R103: such a string is trimmed and aligned back to the aligned one, beside keys that are no longer. -/
theorem alignToTriple_trim {s ct b1 b2 : BitStr} (hs : s.length % 12 = 0) (hne : s ≠ []) (hfirst : true ∈ s.take 12)
    (hvalue : bitsValue ct = bitsValue s) (hlen : ct.length < s.length + 8) (hb1 : b1 ≠ []) (hb2 : b2 ≠ [])
    (hle1 : b1.length ≤ s.length) (hle2 : b2.length ≤ s.length) :
    alignToTriple (trimToPreviousMultipleOf12 ct) b1 b2 = .ok (s, padLeft s.length b1, padLeft s.length b2) := by
  obtain ⟨hle, hlt⟩ := length_trim_bounds hs hne hfirst hvalue hlen
  have hpos := List.length_pos_iff.2 hne
  have hpad : padLeft s.length (trimToPreviousMultipleOf12 ct) = s :=
    eq_of_bitsValue_eq (length_padLeft hle) (by rw [bitsValue_padLeft, bitsValue_trim, hvalue])
  have hal := alignToTriple_ok (List.ne_nil_of_length_pos (by omega : 0 < (trimToPreviousMultipleOf12 ct).length)) hb1 hb2
    (eq_roundUp hs (by omega) (by omega))
  rwa [hpad] at hal

/-- R80: SC's steps of `decrypt` undo those of `encrypt` on aligned strings. -/
theorem decryptBits_of_encryptBits {pt k1 k2 s2 : BitStr} (hne : pt ≠ []) (hpt : pt.length % 12 = 0)
    (h1 : k1.length = pt.length) (h2 : k2.length = pt.length) (h : encryptBits pt k1 k2 = .ok s2) :
    decryptBits s2 k1 k2 = .ok pt := by
  obtain ⟨ts, rfl, rfl, rfl⟩ := exists_triples hpt h1 h2
  have hts : ts ≠ [] := by rintro rfl; exact hne rfl
  cases (encryptBits_map hts).symm.trans h
  have hdec := decryptBits_map (ts := ts.map fun t => (encValue t.1 t.2.1 t.2.2, t.2)) (by simpa using hts)
  simpa [Function.comp_def, decValue_encValue] using hdec

theorem encryptWith_of_ok {core : BitStr → BitStr → BitStr → Proc BitStr} {t key1 key2 : Text} {pb b1 b2 pt k1 k2 s2 : BitStr}
    (hp : encodeText t = .ok pb) (h1 : encodeText key1 = .ok b1) (h2 : encodeText key2 = .ok b2)
    (hal : alignToTriple pb b1 b2 = .ok (pt, k1, k2)) (hcore : core pt k1 k2 = .ok s2) :
    encryptWith core t key1 key2 = decodeText s2 := by
  obtain ⟨ht, -, -⟩ := encodeText_eq_ok hp
  obtain ⟨hk1, -, -⟩ := encodeText_eq_ok h1
  obtain ⟨hk2, -, -⟩ := encodeText_eq_ok h2
  rw [encryptWith, if_neg (by simp [ht, hk1, hk2])]
  simp only [hp, h1, h2, hal, hcore, bind, Except.bind]

theorem decryptWith_of_ok {core : BitStr → BitStr → BitStr → Proc BitStr} {t key1 key2 : Text} {cb b1 b2 ct k1 k2 s : BitStr}
    (hc : encodeText t = .ok cb) (h1 : encodeText key1 = .ok b1) (h2 : encodeText key2 = .ok b2)
    (hal : alignToTriple (trimToPreviousMultipleOf12 cb) b1 b2 = .ok (ct, k1, k2)) (hcore : core ct k1 k2 = .ok s) :
    decryptWith core t key1 key2 = decodeText s := by
  obtain ⟨ht, -, -⟩ := encodeText_eq_ok hc
  obtain ⟨hk1, -, -⟩ := encodeText_eq_ok h1
  obtain ⟨hk2, -, -⟩ := encodeText_eq_ok h2
  rw [decryptWith, if_neg (by simp [ht, hk1, hk2])]
  simp only [hc, h1, h2, hal, hcore, bind, Except.bind]

/-- R87: zeros on the left of a text's bits add only characters that are stripped again. -/
theorem decodeText_padLeft {p : Text} {n : Nat} (hne : p ≠ []) (hp : ∀ c ∈ p, 32 ≤ c ∧ c ≤ 255) (hn : 8 * p.length ≤ n) :
    decodeText (padLeft n (bitsOfBytes p)) = .ok p := by
  have hpos := List.length_pos_iff.2 hne
  have hlen : (padLeft n (bitsOfBytes p)).length = n := length_padLeft (by simpa using hn)
  have hround := le_roundUp (m := 8) (by decide) n
  obtain ⟨q, hq⟩ := dvd_roundUp 8 n
  have hpad : padLeft (roundUp 8 (padLeft n (bitsOfBytes p)).length) (padLeft n (bitsOfBytes p)) =
      bitsOfBytes (List.replicate (q - p.length) 0 ++ p) := by
    rw [hlen]
    refine eq_of_bitsValue_eq ?_ ?_
    · rw [length_padLeft (by rwa [hlen]), length_bitsOfBytes, List.length_append, List.length_replicate]
      omega
    · rw [bitsValue_padLeft, bitsValue_padLeft, bitsValue_bitsOfBytes_zeros]
  have hbytes : ∀ v ∈ List.replicate (q - p.length) 0 ++ p, v < 256 := fun v hv => by
    obtain hv | hv := List.mem_append.1 hv
    · rw [List.eq_of_mem_replicate hv]
      decide
    · have := hp v hv
      omega
  have hchars : p.map decodeByte = p := by
    refine (List.map_congr_left fun c hc => ?_).trans (List.map_id p)
    exact if_neg (by have := hp c hc; omega)
  have hkept : (p.dropWhile fun c => c == 0x2400) = p := by
    refine List.dropWhile_eq_self_iff.2 fun hl => ?_
    have := hp _ (List.getElem_mem hl)
    simp only [beq_iff_eq]
    omega
  rw [decodeText_of_bytes (List.ne_nil_of_length_pos (by omega)) hbytes hpad, List.map_append, hchars,
    List.dropWhile_append_of_pos fun c hc => ?_, hkept]
  rw [List.map_replicate] at hc
  rw [List.eq_of_mem_replicate hc]
  rfl

/-- Settles O58: the ciphertext encodes to `s2` up to leading zeros, which the trim and the alignment bring back to `s2`'s length;
deciphering undoes enciphering, and decoding strips the padding of the plaintext. -/
theorem textRoundTripAwayFromTheBoundary : Obligations.TextRoundTripAwayFromTheBoundary := by
  intro p key1 key2 pb b1 b2 pt k1 k2 s2 hchars hp h1 h2 hal henc hfirst
  obtain ⟨hne, hpt, hk1, hk2⟩ := length_of_alignToTriple hal
  obtain ⟨⟨s, hs, hlen, -⟩, -⟩ := messageIsEncipheredBlockByBlock pt k1 k2 hne hpt hk1 hk2
  cases hs.symm.trans henc
  have hdec := decryptBits_of_encryptBits hne hpt hk1 hk2 henc
  obtain ⟨n, hn, -, hb1, hb2, rfl, rfl, rfl⟩ := alignToTriple_eq_ok hal
  have hle : max (max pb.length b1.length) b2.length ≤ n := hn ▸ le_roundUp (by decide) _
  have hs2len : s2.length = n := hlen.trans (length_padLeft (by omega))
  have hs2 : s2 ≠ [] := by rintro rfl; simp at hfirst
  have hvalue : bitsValue s2 ≠ 0 := ((Nat.two_pow_pos _).trans_le (two_pow_le_bitsValue hfirst)).ne'
  obtain ⟨c, ct, hdecode, hencode, hctvalue, hctlen⟩ := exists_encodeText_of_decodeText hvalue
  have hcalign := alignToTriple_trim (hlen ▸ hpt) hs2 hfirst hctvalue hctlen hb1 hb2 (by omega) (by omega)
  rw [hs2len] at hcalign
  obtain ⟨hpne, -, -⟩ := encodeText_eq_ok hp
  obtain rfl : pb = bitsOfBytes p :=
    Except.ok.inj (hp.symm.trans (encodeText_of_lt hpne fun c hc => by have := hchars c hc; omega))
  have hplen : 8 * p.length ≤ n := by rw [← length_bitsOfBytes]; omega
  exact ⟨c, (encryptWith_of_ok hp h1 h2 hal henc).trans hdecode,
    (decryptWith_of_ok hencode h1 h2 hcalign hdec).trans (decodeText_padLeft hpne hchars hplen)⟩

end Sys2Proof.Machine
end
